-- ==== Sys2Proof/Word.lean ====
section
/-! DEFINITION. The machine's words and colour values: bytes, bus addresses and data words (20_memory.md R60, R65),
and the pixel type (00_scope.md R14). -/

namespace Sys2Proof

/-- One byte of a region, of an operand or of a serialised operation (R60, R110). -/
abbrev Byte := BitVec 8

/-- A bus address: ADDR_BITS = 32 (R9, R60). -/
abbrev Addr := BitVec 32

/-- The data of a word access, 2 bytes (R65). -/
abbrev Half := BitVec 16

/-- The data of a long access, 4 bytes (R65). -/
abbrev Long := BitVec 32

/-- An opaque colour: three unsigned 8-bit channels (R14). -/
structure Rgb where
  r : Byte
  g : Byte
  b : Byte
deriving DecidableEq, Repr, Inhabited

/-- `Pixel = Transparent | Opaque(r, g, b)` (R14). -/
inductive Pixel where
  /-- The pixel that draws nothing (R152). -/
  | transparent
  /-- An opaque colour. -/
  | solid (c : Rgb)
deriving DecidableEq, Repr, Inhabited

end Sys2Proof
end

