-- ==== Sys2Proof/Syntax.lean ====
section
/-! DEFINITION. The operations of the video core (30_encoding.md R111), one constructor for each row of the opcode
table, over decoded operands (R112, R115), and the two agents that issue them (60_exceptions.md R290). -/

namespace Sys2Proof

/-- The three regions (10_state.md R20), the only legal region operands (R112). -/
inductive Region where
  | vram
  | ramw
  | io
deriving DecidableEq, Repr

/-- The two agents (R290). -/
inductive Agent where
  /-- The CPU-emulation engine: bus transactions and range queries. -/
  | cpuSide
  /-- The host application: ticks, character-set loads and region attaches. -/
  | host
deriving DecidableEq, Repr

/-- The operations of R111. The stream length `n` of LOAD_CHARSET is the length of `stream` (R114, R240). -/
inductive Instr where
  /-- READ_BYTE, R120. -/
  | readByte (addr : Addr)
  /-- WRITE_BYTE, R121. -/
  | writeByte (addr : Addr) (data : Byte)
  /-- READ_WORD, R122. -/
  | readWord (addr : Addr)
  /-- WRITE_WORD, R123. -/
  | writeWord (addr : Addr) (data : Half)
  /-- READ_LONG, R124. -/
  | readLong (addr : Addr)
  /-- WRITE_LONG, R125. -/
  | writeLong (addr : Addr) (data : Long)
  /-- QUERY_RANGE, R126. -/
  | queryRange (region : Region)
  /-- TICK, R150. -/
  | tick
  /-- LOAD_CHARSET, R240. -/
  | loadCharset (region : Region) (toff soff : BitVec 32) (gw gh id tag : Byte) (stream : List Byte)
  /-- ATTACH_REGION, R248. -/
  | attachRegion (region : Region)
deriving DecidableEq, Repr

end Sys2Proof
end

