-- ==== Sys2Proof/Config.lean ====
section
/-! DEFINITION. What is fixed for a run: the parameters of 00_scope.md R9, their default values, and the constants
without a body that stand for the values the spec leaves open. -/

namespace Sys2Proof

/-- The bytes of a region, sparsely: (offset, byte) pairs, offsets strictly rising, no entry equal to what an unlisted
offset reads as (notes/assumptions/11.md). `Machine.Memory.read` and `Machine.Memory.write` are its only accesses. -/
abbrev Memory := List Host.Cell

/-- The bus range of a region: `base(r)` and `len(r)` (10_state.md R20). -/
structure Window where
  base : Nat
  len : Nat
deriving DecidableEq, Repr

/-- LAYOUT: the window of each region (R9, R21). -/
structure Layout where
  vram : Window
  ramw : Window
  io : Window
deriving DecidableEq, Repr

/-- The parameters of R9 that are not fixed numbers. -/
structure Config where
  /-- LAYOUT (R9, R21). -/
  layout : Layout
  /-- BLINK_RATE (R9, R260). -/
  blinkRate : Nat
  /-- INIT_IMAGE_VRAM (R9, R248). -/
  imageVram : Memory
  /-- INIT_IMAGE_RAMW (R9, R248). -/
  imageRamw : Memory
  /-- INIT_IMAGE_IO (R9, R248). -/
  imageIo : Memory
  /-- BAKED_FG (R9, R177). -/
  bakedFg : Pixel
  /-- CURSOR_COLOR, an opaque pixel (R9, R180). -/
  cursorColor : Rgb
deriving DecidableEq, Repr

/-- The default LAYOUT (R21). -/
def Layout.default : Layout where
  vram := ⟨0xB00000, 0x400000⟩
  ramw := ⟨0x000000, 0x100⟩
  io := ⟨0xAF0000, 0x10000⟩

/-- The baked-in foreground that the default parameters hold: the spec gives none (R177, D17), so it has no body
(DESIGN CHOICE, safe; notes/assumptions/5.md). -/
opaque Config.openBakedFg : Pixel

/-- The cursor colour that the default parameters hold: the spec gives none (R180, D16), so it has no body
(DESIGN CHOICE, safe; notes/assumptions/5.md). -/
opaque Config.openCursorColor : Rgb

/-- The pixel at column `x`, row `y` of the `k`-th placeholder frame: a draw, any value (60_exceptions.md R281, D26)
(DESIGN CHOICE, safe; notes/assumptions/4.md). -/
opaque Config.diagPixel (k x y : Nat) : Pixel

/-- The parameters the machine has at reset: the default LAYOUT and BLINK_RATE of R9, the open colours without a value,
and initial images of zero bytes (DESIGN CHOICE, unsafe; notes/assumptions/6.md). -/
def Config.default : Config where
  layout := Layout.default
  blinkRate := 10
  imageVram := []
  imageRamw := []
  imageIo := []
  bakedFg := Config.openBakedFg
  cursorColor := Config.openCursorColor

end Sys2Proof
end

