-- ==== Sys2Proof/Machine/Operands.lean ====
section
/-! DEFINITION. Operand assembly (30_encoding.md R115) and the one byte order of the machine, little-endian
(20_memory.md R64): how bytes make words and words make bytes. -/

namespace Sys2Proof.Machine

/-- The word whose bytes, lowest address first, are `b0 b1` (R64). -/
def le16 (b0 b1 : Byte) : Half := b1 ++ b0

/-- The long whose bytes, lowest address first, are `b0 b1 b2 b3` (R64). -/
def le32 (b0 b1 b2 b3 : Byte) : Long := b3 ++ b2 ++ b1 ++ b0

/-- Byte `i` of a value: `v[8i+7 : 8i]` (R64, R125). -/
def byteOf {w : Nat} (v : BitVec w) (i : Nat) : Byte := v.extractLsb' (8 * i) 8

/-- The four bytes of a 32-bit operand in the order they are serialised (R110). -/
def longBytes (v : Long) : List Byte := [byteOf v 0, byteOf v 1, byteOf v 2, byteOf v 3]

/-- The two bytes of a 16-bit operand in the order they are serialised (R110). -/
def halfBytes (v : Half) : List Byte := [byteOf v 0, byteOf v 1]

/-- The `n` low bytes of a number, least significant first. -/
def leBytes : Nat → Nat → List Byte
  | 0, _ => []
  | n + 1, v => BitVec.ofNat 8 v :: leBytes n (v / 256)

/-- The region a region operand names (R112). -/
def regionOfCode (code : Byte) : Option Region :=
  if code = 0x00#8 then some .vram
  else if code = 0x01#8 then some .ramw
  else if code = 0x02#8 then some .io
  else none

/-- The region operand that names a region (R112). -/
def codeOfRegion : Region → Byte
  | .vram => 0x00
  | .ramw => 0x01
  | .io => 0x02

end Sys2Proof.Machine
end

