-- ==== Sys2Proof/WellFormed.lean ====
section
/-! DEFINITION. Which operations have an encoding. Every operand is typed at its encoded width, so one check is left:
the length of a LOAD_CHARSET stream is the 32-bit operand `n` (30_encoding.md R111, R114). -/

namespace Sys2Proof

/-- The operation's operands fit their encoded fields (R111, R115). -/
def Instr.wf : Instr → Bool
  | .readByte _ => true
  | .writeByte _ _ => true
  | .readWord _ => true
  | .writeWord _ _ => true
  | .readLong _ => true
  | .writeLong _ _ => true
  | .queryRange _ => true
  | .tick => true
  | .loadCharset _ _ _ _ _ _ _ stream => decide (stream.length < 2 ^ 32)
  | .attachRegion _ => true

end Sys2Proof
end

