-- ==== Sys2Proof/Decode.lean ====
section
/-! DEFINITION. The decoder of serialised operations, total on any bytes and refusing by name (30_encoding.md R110 to
R115), and after it the encoder, from the same table R111. -/

namespace Sys2Proof

open Sys2Proof.Machine (le16 le32 longBytes halfBytes leBytes regionOfCode codeOfRegion)

/-- Why the decoder refuses a byte string (R113). A refusal is safe: nothing reaches the video core. -/
inductive DecodeError where
  /-- No byte at all. -/
  | noBytes
  /-- Byte 0 is no opcode of R111. -/
  | unknownOpcode (op : Byte)
  /-- A region operand of 0x03 to 0xFF. -/
  | unknownRegion (op code : Byte)
  /-- The string is shorter than the length of its format. -/
  | tooShort (op : Byte)
deriving DecidableEq, Repr

/-- The opcode of each operation (R111). -/
def opcode : Instr → Byte
  | .readByte _ => 0x01
  | .writeByte _ _ => 0x02
  | .readWord _ => 0x03
  | .writeWord _ _ => 0x04
  | .readLong _ => 0x05
  | .writeLong _ _ => 0x06
  | .queryRange _ => 0x07
  | .tick => 0x10
  | .loadCharset _ _ _ _ _ _ _ _ => 0x20
  | .attachRegion _ => 0x30

/-- Format A: opcode, addr:32 (R111). -/
def decodeA (mk : Addr → Instr) (op : Byte) : List Byte → Except DecodeError (Instr × List Byte)
  | a0 :: a1 :: a2 :: a3 :: rest => .ok (mk (le32 a0 a1 a2 a3), rest)
  | _ => .error (.tooShort op)

/-- Format AD8: opcode, addr:32, data:8 (R111). -/
def decodeAD8 (mk : Addr → Byte → Instr) (op : Byte) : List Byte → Except DecodeError (Instr × List Byte)
  | a0 :: a1 :: a2 :: a3 :: d0 :: rest => .ok (mk (le32 a0 a1 a2 a3) d0, rest)
  | _ => .error (.tooShort op)

/-- Format AD16: opcode, addr:32, data:16 (R111). -/
def decodeAD16 (mk : Addr → Half → Instr) (op : Byte) : List Byte → Except DecodeError (Instr × List Byte)
  | a0 :: a1 :: a2 :: a3 :: d0 :: d1 :: rest => .ok (mk (le32 a0 a1 a2 a3) (le16 d0 d1), rest)
  | _ => .error (.tooShort op)

/-- Format AD32: opcode, addr:32, data:32 (R111). -/
def decodeAD32 (mk : Addr → Long → Instr) (op : Byte) : List Byte → Except DecodeError (Instr × List Byte)
  | a0 :: a1 :: a2 :: a3 :: d0 :: d1 :: d2 :: d3 :: rest =>
    .ok (mk (le32 a0 a1 a2 a3) (le32 d0 d1 d2 d3), rest)
  | _ => .error (.tooShort op)

/-- Format R: opcode, region:8 (R111, R112). -/
def decodeR (mk : Region → Instr) (op : Byte) : List Byte → Except DecodeError (Instr × List Byte)
  | code :: rest =>
    match regionOfCode code with
    | some r => .ok (mk r, rest)
    | none => .error (.unknownRegion op code)
  | _ => .error (.tooShort op)

/-- Format L: opcode, region:8, toff:32, soff:32, gw:8, gh:8, id:8, tag:8, n:32, then `n` stream bytes (R111, R114). -/
def decodeL (op : Byte) : List Byte → Except DecodeError (Instr × List Byte)
  | code :: t0 :: t1 :: t2 :: t3 :: s0 :: s1 :: s2 :: s3 :: gw :: gh :: id :: tag :: n0 :: n1 :: n2 :: n3 :: rest =>
    match regionOfCode code with
    | none => .error (.unknownRegion op code)
    | some r =>
      if rest.length < (le32 n0 n1 n2 n3).toNat then .error (.tooShort op)
      else
        .ok (.loadCharset r (le32 t0 t1 t2 t3) (le32 s0 s1 s2 s3) gw gh id tag
              (rest.take (le32 n0 n1 n2 n3).toNat),
             rest.drop (le32 n0 n1 n2 n3).toNat)
  | _ => .error (.tooShort op)

/-- Reads one operation from the front of a byte string, with the bytes after it, or refuses by name (R111, R113, R114). -/
def decode : List Byte → Except DecodeError (Instr × List Byte)
  | [] => .error .noBytes
  | op :: bs =>
    if op = 0x01#8 then decodeA .readByte op bs
    else if op = 0x02#8 then decodeAD8 .writeByte op bs
    else if op = 0x03#8 then decodeA .readWord op bs
    else if op = 0x04#8 then decodeAD16 .writeWord op bs
    else if op = 0x05#8 then decodeA .readLong op bs
    else if op = 0x06#8 then decodeAD32 .writeLong op bs
    else if op = 0x07#8 then decodeR .queryRange op bs
    else if op = 0x10#8 then .ok (.tick, bs)
    else if op = 0x20#8 then decodeL op bs
    else if op = 0x30#8 then decodeR .attachRegion op bs
    else .error (.unknownOpcode op)

/-- The byte string of an operation (R110, R111). -/
def encode : Instr → List Byte
  | .readByte a => 0x01 :: longBytes a
  | .writeByte a d => 0x02 :: (longBytes a ++ [d])
  | .readWord a => 0x03 :: longBytes a
  | .writeWord a d => 0x04 :: (longBytes a ++ halfBytes d)
  | .readLong a => 0x05 :: longBytes a
  | .writeLong a d => 0x06 :: (longBytes a ++ longBytes d)
  | .queryRange r => [0x07, codeOfRegion r]
  | .tick => [0x10]
  | .loadCharset r toff soff gw gh id tag stream =>
    0x20 :: codeOfRegion r ::
      (longBytes toff ++ (longBytes soff ++ ([gw, gh, id, tag] ++
        (longBytes (BitVec.ofNat 32 stream.length) ++ stream))))
  | .attachRegion r => [0x30, codeOfRegion r]

/-- The length of an operation in bytes (R114). -/
def opLength : Instr → Nat
  | .readByte _ => 5
  | .writeByte _ _ => 6
  | .readWord _ => 5
  | .writeWord _ _ => 7
  | .readLong _ => 5
  | .writeLong _ _ => 9
  | .queryRange _ => 2
  | .tick => 1
  | .loadCharset _ _ _ _ _ _ _ stream => 18 + stream.length
  | .attachRegion _ => 2

/-- The fixed part of the length that an opcode byte gives (R114); none for a byte that is no opcode. -/
def fixedLength (op : Nat) : Option Nat :=
  match op with
  | 0x01 => some 5
  | 0x02 => some 6
  | 0x03 => some 5
  | 0x04 => some 7
  | 0x05 => some 5
  | 0x06 => some 9
  | 0x07 => some 2
  | 0x10 => some 1
  | 0x20 => some 18
  | 0x30 => some 2
  | _ => none

/-- The bytes of the instruction whose bits, numbered from byte 0's bit 0 upward, are the low `nbits` bits of `w`, every
bit above them being 0: as many bytes as its opcode (and for LOAD_CHARSET its operand `n`) asks for. Where byte 0 is no
opcode, the bytes given. -/
def tableBytes (nbits w : Nat) : List Byte :=
  let v := w % 2 ^ nbits
  match fixedLength (v % 256) with
  | some len =>
    if v % 256 = 0x20 then leBytes (len + v / 2 ^ 112 % 2 ^ 32) v else leBytes len v
  | none => leBytes ((nbits + 7) / 8) v

/-- What the decoder reads from an opcode-table word. -/
def decodeTableWord (nbits w : Nat) : Option Instr :=
  match decode (tableBytes nbits w) with
  | .ok (i, _) => some i
  | .error _ => none

end Sys2Proof
end

