-- ==== Sys2Proof/Machine/State.lean ====
section
/-! DEFINITION. The state of the video core (10_state.md), its outputs (R35), and the state at power-on (R36, R310). -/

namespace Sys2Proof.Machine

/-- The blink phase (R30). -/
inductive Phase where
  | visible
  | hidden
deriving DecidableEq, Repr

/-- The cursor-blink state `(phase, countdown)` (R30, R260). -/
structure Blink where
  phase : Phase
  countdown : Nat
deriving DecidableEq, Repr

/-- A glyph: 8 row bytes, row 0 (top) first (R31, 30_encoding.md R98). -/
structure Glyph where
  rows : Vector Byte 8
deriving DecidableEq, Repr

/-- A loaded character set: identifier, type tag and the glyphs of codes 0 to 255 in order (R31). -/
structure CharSet where
  id : Byte
  tag : Byte
  glyphs : List Glyph
deriving DecidableEq, Repr

/-- A presented frame: 480 rows of 640 pixels (R32). -/
structure Frame where
  rows : List (List Pixel)
deriving DecidableEq, Repr

/-- The diagnostic reasons of a TICK (60_exceptions.md R281). -/
inductive DiagReason where
  | noStorage
  | textConfig
  | noCharset
deriving DecidableEq, Repr

/-- The results of LOAD_CHARSET (R282). -/
inductive LoadResult where
  | ok
  | truncated
  | badGlyphSize
  | noTarget
deriving DecidableEq, Repr

/-- The results of ATTACH_REGION (R283). -/
inductive AttachResult where
  | ok
  | alreadyAttached
deriving DecidableEq, Repr

/-- The outputs of the video core (R35). -/
inductive Output where
  /-- The value of a READ_BYTE. -/
  | byte (v : Byte)
  /-- The value of a READ_WORD. -/
  | word (v : Half)
  /-- The value of a READ_LONG. -/
  | long (v : Long)
  /-- The triple of a QUERY_RANGE: StartAddress, Length, EndAddress. -/
  | range (start length last : Nat)
  /-- QUERY_RANGE of an unattached region. -/
  | notAttached
  /-- The frame a TICK presents and its set of diagnostic reasons (a list without repeats). -/
  | tick (frame : Frame) (diag : List DiagReason)
  /-- The result of a LOAD_CHARSET. -/
  | load (result : LoadResult)
  /-- The result of an ATTACH_REGION. -/
  | attach (result : AttachResult)
deriving DecidableEq, Repr

/-- The byte array of each region, absent while the region is unattached (R20). -/
structure Regions where
  vram : Option Memory
  ramw : Option Memory
  io : Option Memory
deriving DecidableEq, Repr

/-- The video core raises no exception, trap or fault (R280), so no step ends in one: there is no constructor. -/
inductive Fault where
deriving DecidableEq, Repr

/-- Why a step has no meaning. None of these changes the state. -/
inductive Refusal where
  /-- An operation the model gives no meaning yet: raised by no arm of `exec`. Safe. -/
  | notModelled (mnemonic : String)
  /-- `step`: the bytes spell no operation; the decoder refuses them by name (R113). Safe. -/
  | undecodable (error : DecodeError)
  /-- `step`: the parameters break a constraint of R10; such a configuration has no model. Safe. -/
  | invalidConfig
  /-- `step`: an agent's bytes spell an operation that the other agent issues (R290). Safe. -/
  | foreignOperation (agent : Agent)
deriving DecidableEq, Repr

/-- The whole state: the parameters (constant in a run), the state of R36, and the model's own fields. -/
structure State where
  /-- The parameters of R9 (notes/assumptions/1.md). -/
  cfg : Config
  /-- The region bytes, with every register field of R23 and R25 in them (R20, R22, R28). -/
  regions : Regions
  /-- The character-set store, in slot order (R31). -/
  charsets : List CharSet
  /-- The cursor-blink state (R30). -/
  blink : Blink
  /-- MODEL: the serialised operations the CPU side has issued and the core has not run (notes/assumptions/2.md). -/
  cpuQueue : List Byte
  /-- MODEL: the serialised operations the host has issued and the core has not run (notes/assumptions/2.md). -/
  hostQueue : List Byte
  /-- MODEL: whose operation comes next, then after that, and so on: the rest of the total order of 20_memory.md R70
  (notes/assumptions/2.md). -/
  schedule : List Agent
  /-- MODEL: how many placeholder frames have been drawn (notes/assumptions/4.md). -/
  draws : Nat
  /-- MODEL: the outputs so far, oldest first (R35; notes/assumptions/3.md). -/
  outputs : List Output
deriving DecidableEq, Repr

/-- The power-on state for given parameters: nothing attached, no character set, blink (Visible, BLINK_RATE)
(R36, R261, R310). -/
def State.powerOn (cfg : Config) : State where
  cfg := cfg
  regions := ⟨none, none, none⟩
  charsets := []
  blink := ⟨.visible, cfg.blinkRate⟩
  cpuQueue := []
  hostQueue := []
  schedule := []
  draws := 0
  outputs := []

/-- The machine right after power-on with the default parameters (R36, R310). -/
def State.reset : State := State.powerOn Config.default

end Sys2Proof.Machine
end

