-- ==== Sys2Proof/Machine/Ops.lean ====
section
/-! DEFINITION. The named operations over memory, regions, the bus and the state's fields (00_scope.md R13,
20_memory.md). The video core has no exception entry and no return from one (60_exceptions.md R280, R288), so none
stands here. -/

namespace Sys2Proof.Machine

/-! ## The bytes of one region -/

/-- What an offset that a `Memory` does not list reads as (notes/assumptions/6.md and 11.md). -/
def Memory.unlisted : Byte := 0

/-- The byte at an offset. -/
def Memory.read : Memory → Nat → Byte
  | [], _ => Memory.unlisted
  | (a, v) :: m, o => if a = o then v else Memory.read m o

/-- Puts an entry before the first one with a greater offset. -/
def Memory.insert : Memory → Nat → Byte → Memory
  | [], o, v => [(o, v)]
  | (a, w) :: m, o, v => if o < a then (o, v) :: (a, w) :: m else (a, w) :: Memory.insert m o v

/-- Takes the entry of an offset out. -/
def Memory.erase (m : Memory) (o : Nat) : Memory := m.filter fun c => c.1 != o

/-- Stores a byte, keeping the canonical form: a byte equal to `Memory.unlisted` is not listed. -/
def Memory.write (m : Memory) (o : Nat) (v : Byte) : Memory :=
  if v = Memory.unlisted then Memory.erase m o else Memory.insert (Memory.erase m o) o v

/-- The canonical form: offsets strictly rising, no entry equal to `Memory.unlisted`. -/
def Memory.wf : Memory → Bool
  | [] => true
  | (a, v) :: m => decide (v ≠ Memory.unlisted) && m.all (fun c => decide (a < c.1)) && Memory.wf m

/-- Every listed offset is below `len`: the memory is the byte array of a region of that length (R20). -/
def Memory.fits (m : Memory) (len : Nat) : Bool := m.all fun c => decide (c.1 < len)

/-! ## Parameters -/

/-- The window of a region (R20). -/
def Layout.window (l : Layout) : Region → Window
  | .vram => l.vram
  | .ramw => l.ramw
  | .io => l.io

/-- `len(r)` (R20). -/
def regionLen (cfg : Config) (r : Region) : Nat := (Layout.window cfg.layout r).len

/-- `base(r)` (R20). -/
def regionBase (cfg : Config) (r : Region) : Nat := (Layout.window cfg.layout r).base

/-- INIT_IMAGE_r (R9). -/
def initImage (cfg : Config) : Region → Memory
  | .vram => cfg.imageVram
  | .ramw => cfg.imageRamw
  | .io => cfg.imageIo

/-- Two windows share no address. -/
def windowsApart (v w : Window) : Bool := decide (v.base + v.len ≤ w.base) || decide (w.base + w.len ≤ v.base)

/-- A region's own constraints of R10: length at least 1, inside [0, 2^ADDR_BITS), an initial image of its length. -/
def regionParamsValid (cfg : Config) (r : Region) : Bool :=
  decide (1 ≤ regionLen cfg r) && decide (regionBase cfg r + regionLen cfg r ≤ 2 ^ 32) &&
    Memory.wf (initImage cfg r) && Memory.fits (initImage cfg r) (regionLen cfg r)

/-- The constraints of R10 on the parameters. -/
def configValid (cfg : Config) : Bool :=
  decide (1 ≤ cfg.blinkRate) &&
    (regionParamsValid cfg .vram && regionParamsValid cfg .ramw && regionParamsValid cfg .io) &&
    (windowsApart cfg.layout.vram cfg.layout.ramw && windowsApart cfg.layout.vram cfg.layout.io &&
      windowsApart cfg.layout.ramw cfg.layout.io) &&
    decide (0x12 ≤ regionLen cfg .ramw) && decide (0x10000 ≤ regionLen cfg .io)

/-! ## Regions -/

/-- The byte array of a region, none while it is unattached (R20). -/
def Regions.get (g : Regions) : Region → Option Memory
  | .vram => g.vram
  | .ramw => g.ramw
  | .io => g.io

/-- Gives a region a byte array. -/
def Regions.set (g : Regions) (r : Region) (m : Memory) : Regions :=
  match r with
  | .vram => { g with vram := some m }
  | .ramw => { g with ramw := some m }
  | .io => { g with io := some m }

/-- `attached(r)` (R20). -/
def attached (g : Regions) (r : Region) : Bool := (Regions.get g r).isSome

/-- `RegionRead(r, off, 1)`: the byte at an offset, 0 past the end of the region (R13, R62). An unattached region has
no byte and reads 0 (R63; notes/assumptions/12.md). -/
def regionByte (cfg : Config) (g : Regions) (r : Region) (off : Nat) : Byte :=
  if off < regionLen cfg r then
    match Regions.get g r with
    | some m => Memory.read m off
    | none => 0
  else 0

/-- `RegionRead(r, off, n)`: the little-endian unsigned value of `n` bytes, each range-checked alone (R13, R62, D40). -/
def regionRead (cfg : Config) (g : Regions) (r : Region) : Nat → Nat → Nat
  | _, 0 => 0
  | off, n + 1 => (regionByte cfg g r off).toNat + 256 * regionRead cfg g r (off + 1) n

/-- `RegionWrite(r, off, 1, v)`: stores one byte; past the end of the region, or in an unattached region, nothing
(R13, R62). -/
def regionWriteByte (cfg : Config) (r : Region) (off : Nat) (v : Byte) (g : Regions) : Regions :=
  if off < regionLen cfg r then
    match Regions.get g r with
    | some m => Regions.set g r (Memory.write m off v)
    | none => g
  else g

/-- `RegionWrite(r, off, n, v)`: the `n` low bytes of `v`, least significant first (R13). -/
def regionWrite (cfg : Config) (r : Region) : Nat → Nat → Nat → Regions → Regions
  | _, 0, _, g => g
  | off, n + 1, v, g => regionWrite cfg r (off + 1) n (v / 256) (regionWriteByte cfg r off (BitVec.ofNat 8 v) g)

/-- `RegionWrite(r, off + i, 1, bytes[i])` for each `i` in ascending order (45_charset.md R240, R244). -/
def regionWriteBytes (cfg : Config) (r : Region) : Nat → List Byte → Regions → Regions
  | _, [], g => g
  | off, b :: bs, g => regionWriteBytes cfg r (off + 1) bs (regionWriteByte cfg r off b g)

/-! ## The bus -/

/-- `base(r) ≤ a < base(r) + len(r)` with r attached (R61). -/
def answers (cfg : Config) (g : Regions) (r : Region) (a : Addr) : Bool :=
  attached g r && decide (regionBase cfg r ≤ a.toNat) && decide (a.toNat < regionBase cfg r + regionLen cfg r)

/-- `decode(a)`: the attached region an address falls in and the offset there; none where it is unmapped (R61). Under
R10 at most one region answers, so the order of the tests does not matter. -/
def busDecode (cfg : Config) (g : Regions) (a : Addr) : Option (Region × Nat) :=
  if answers cfg g .vram a then some (.vram, a.toNat - regionBase cfg .vram)
  else if answers cfg g .ramw a then some (.ramw, a.toNat - regionBase cfg .ramw)
  else if answers cfg g .io a then some (.io, a.toNat - regionBase cfg .io)
  else none

/-- `ReadByteBus(addr)`: 0 where the address is unmapped (R63, R120). -/
def readByteBus (cfg : Config) (g : Regions) (a : Addr) : Byte :=
  match busDecode cfg g a with
  | none => 0
  | some (r, off) => regionByte cfg g r off

/-! ## The snapshot of a TICK -/

/-- What a render pass reads: the regions, their attachment and the glyph store, with the parameters (R71, R150). -/
structure Snapshot where
  cfg : Config
  regions : Regions
  charsets : List CharSet
deriving DecidableEq, Repr

/-- The snapshot at this point of the total order (R71). -/
def snapshotOf (s : State) : Snapshot := ⟨s.cfg, s.regions, s.charsets⟩

/-- `RegionRead(r, off, 1)` of a snapshot. -/
def Snapshot.byte (sn : Snapshot) (r : Region) (off : Nat) : Byte := regionByte sn.cfg sn.regions r off

/-- `RegionRead(r, off, n)` of a snapshot. -/
def Snapshot.read (sn : Snapshot) (r : Region) (off n : Nat) : Nat := regionRead sn.cfg sn.regions r off n

/-! ## Updates of the state, one for each field that an operation writes -/

/-- Replaces the region bytes. -/
def State.withRegions (s : State) (g : Regions) : State := { s with regions := g }

/-- Replaces the character-set store. -/
def State.withCharsets (s : State) (c : List CharSet) : State := { s with charsets := c }

/-- Replaces the blink state. -/
def State.withBlink (s : State) (b : Blink) : State := { s with blink := b }

/-- Replaces the count of placeholder draws. -/
def State.withDraws (s : State) (n : Nat) : State := { s with draws := n }

/-- Appends an output (R35). -/
def State.emit (s : State) (o : Output) : State := { s with outputs := s.outputs ++ [o] }

/-- Replaces the schedule. -/
def State.withSchedule (s : State) (l : List Agent) : State := { s with schedule := l }

/-- The serialised operations an agent has issued and the core has not run. -/
def State.queue (s : State) : Agent → List Byte
  | .cpuSide => s.cpuQueue
  | .host => s.hostQueue

/-- Replaces an agent's queue. -/
def State.withQueue (s : State) (a : Agent) (bs : List Byte) : State :=
  match a with
  | .cpuSide => { s with cpuQueue := bs }
  | .host => { s with hostQueue := bs }

/-- Which agent issues an operation (R70, R290). -/
def issuer : Instr → Agent
  | .readByte _ => .cpuSide
  | .writeByte _ _ => .cpuSide
  | .readWord _ => .cpuSide
  | .writeWord _ _ => .cpuSide
  | .readLong _ => .cpuSide
  | .writeLong _ _ => .cpuSide
  | .queryRange _ => .cpuSide
  | .tick => .host
  | .loadCharset _ _ _ _ _ _ _ _ => .host
  | .attachRegion _ => .host

end Sys2Proof.Machine
end

