-- ==== Sys2Proof/Machine/CursorBlink.lean ====
section
/-! DEFINITION. The cursor-blink state machine (46_cursor_blink.md). -/

namespace Sys2Proof.Machine

/-- The other phase. -/
def Phase.flip : Phase → Phase
  | .visible => .hidden
  | .hidden => .visible

/-- `BlinkStep()`: decrement; at zero flip the phase and reload BLINK_RATE in the same tick (R262, 90_conflicts.md C4). -/
def blinkStep (cfg : Config) (b : Blink) : Blink :=
  let c := b.countdown - 1
  if c = 0 then ⟨b.phase.flip, cfg.blinkRate⟩ else ⟨b.phase, c⟩

/-- `MovementEvent()`: the blink state restarts at once (R263). -/
def movementEvent (s : State) : State := s.withBlink ⟨.visible, s.cfg.blinkRate⟩

end Sys2Proof.Machine
end

