-- ==== Sys2Proof/Machine/Fields.lean ====
section
/-! DEFINITION. The fixed numbers of 00_scope.md R9 and the offsets of the register fields in their regions
(10_state.md R23, R25). -/

namespace Sys2Proof.Machine

/-- FRAME_W (R9). -/
abbrev frameW : Nat := 640
/-- FRAME_H (R9). -/
abbrev frameH : Nat := 480
/-- REF_COLS (R9). -/
abbrev refCols : Nat := 80
/-- REF_ROWS (R9). -/
abbrev refRows : Nat := 60
/-- MAX_COLS (R9). -/
abbrev maxCols : Nat := 128
/-- MAX_LINES (R9). -/
abbrev maxLines : Nat := 64
/-- PALETTE_ENTRIES (R9). -/
abbrev paletteEntries : Nat := 16
/-- LUT_ENTRIES (R9). -/
abbrev lutEntries : Nat := 256
/-- LUT_STRIDE (R9). -/
abbrev lutStride : Nat := 1024
/-- COLOR_RECORD (R9). -/
abbrev colorRecord : Nat := 4
/-- GLYPHS_PER_SET (R9). -/
abbrev glyphsPerSet : Nat := 256
/-- GLYPH_BYTES (R9). -/
abbrev glyphBytes : Nat := 8
/-- The bytes of one 8 × 8 character set in a font stream (R99). -/
abbrev fontBytes : Nat := glyphsPerSet * glyphBytes

/-- SCREEN_BASE, 4 bytes of RAMW (R23). -/
abbrev screenBase : Nat := 0x00
/-- CURSOR_POS, 4 bytes of RAMW (R23). -/
abbrev cursorPos : Nat := 0x04
/-- COLS_VISIBLE, 2 bytes of RAMW (R23). -/
abbrev colsVisible : Nat := 0x08
/-- LINES_VISIBLE, 2 bytes of RAMW (R23). -/
abbrev linesVisible : Nat := 0x0A
/-- LINE_STRIDE, 2 bytes of RAMW (R23). -/
abbrev lineStride : Nat := 0x0C
/-- CURSOR_COL, 2 bytes of RAMW (R23). -/
abbrev cursorCol : Nat := 0x0E
/-- CURSOR_ROW, 2 bytes of RAMW (R23). -/
abbrev cursorRow : Nat := 0x10

/-- MODE, 1 byte of IO (R25). -/
abbrev modeReg : Nat := 0x0000
/-- CURSOR_CTRL, 1 byte of IO (R25). -/
abbrev cursorCtrl : Nat := 0x0010
/-- BM_CTRL, 1 byte of IO (R25). -/
abbrev bmCtrl : Nat := 0x0100
/-- BM_START, 4 bytes of IO (R25). -/
abbrev bmStart : Nat := 0x0101
/-- BM_WIDTH, 2 bytes of IO (R25). -/
abbrev bmWidth : Nat := 0x0105
/-- BM_HEIGHT, 2 bytes of IO (R25). -/
abbrev bmHeight : Nat := 0x0107
/-- FG_PALETTE, 16 records of IO (R25). -/
abbrev fgPaletteBase : Nat := 0x1F40
/-- BG_PALETTE, 16 records of IO (R25). -/
abbrev bgPaletteBase : Nat := 0x1F80
/-- LUT_BANKS, 8 banks of 256 records of IO (R25, R224). -/
abbrev lutBase : Nat := 0x2000
/-- FONT_MEM, 2048 bytes of IO (R25). -/
abbrev fontMem : Nat := 0x8000
/-- CHAR_PLANE, 16384 bytes of IO (R25). -/
abbrev charPlane : Nat := 0xA000
/-- COLOR_PLANE = CHAR_PLANE + COLOR_PLANE_OFFSET, 8192 bytes of IO (R9, R25, R173). -/
abbrev colorPlane : Nat := charPlane + 0x4000

end Sys2Proof.Machine
end

