-- ==== Sys2Proof/Machine/RamWindow.lean ====
section
/-! DEFINITION. The RAM-window registers (10_state.md R23) and what a CPU-side write does to them
(40_register_access.md R127 to R133). -/

namespace Sys2Proof.Machine

/-- A field of the RAM window. -/
def ramField (s : State) (off n : Nat) : Nat := regionRead s.cfg s.regions .ramw off n

/-- A write of the core itself to a field of the RAM window. -/
def setRamField (s : State) (off n v : Nat) : State :=
  s.withRegions (regionWrite s.cfg .ramw off n v s.regions)

/-- `max(0, min(v, visible − 1))` on integers (R128). -/
def clampTo (v visible : Nat) : Nat := (max 0 (min (v : Int) ((visible : Int) - 1))).toNat

/-- `ClampCol()` (R128). -/
def clampCol (s : State) : State :=
  setRamField s cursorCol 2 (clampTo (ramField s cursorCol 2) (ramField s colsVisible 2))

/-- `ClampRow()` (R129). -/
def clampRow (s : State) : State :=
  setRamField s cursorRow 2 (clampTo (ramField s cursorRow 2) (ramField s linesVisible 2))

/-- The cursor linear offset, `(base + row*S + col) mod 2^32` (R130). -/
def linearOffset (s : State) : Nat :=
  (ramField s screenBase 4 + ramField s cursorRow 2 * ramField s lineStride 2 + ramField s cursorCol 2) % 2 ^ 32

/-- `RecomputePos()` (R130). -/
def recomputePos (s : State) : State := setRamField s cursorPos 4 (linearOffset s)

/-- `SideEffects(r, off)`, run after every CPU-side byte store (R127, R131, R132, R133). -/
def sideEffects (r : Region) (off : Nat) (s : State) : State :=
  if r ≠ .ramw then s
  else if cursorCol ≤ off ∧ off < cursorCol + 2 then movementEvent (recomputePos (clampCol s))
  else if cursorRow ≤ off ∧ off < cursorRow + 2 then movementEvent (recomputePos (clampRow s))
  else if screenBase ≤ off ∧ off < screenBase + 4 then recomputePos s
  else s

/-- `WriteByteBus(addr, d)`: nothing where the address is unmapped (R63, R121). -/
def writeByteBus (a : Addr) (d : Byte) (s : State) : State :=
  match busDecode s.cfg s.regions a with
  | none => s
  | some (r, off) => sideEffects r off (s.withRegions (regionWriteByte s.cfg r off d s.regions))

end Sys2Proof.Machine
end

