-- ==== Sys2Proof/Machine/BusAccess.lean ====
section
/-! DEFINITION. The CPU-side operations (40_register_access.md R120 to R126): reads, writes and the range query. -/

namespace Sys2Proof.Machine

/-- A bus read of this state (R120). -/
def State.busByte (s : State) (a : Addr) : Byte := readByteBus s.cfg s.regions a

/-- READ_BYTE (R120): returns the byte, changes nothing (R68). -/
def execReadByte (addr : Addr) (s : State) : Host.Outcome State Fault Refusal :=
  .next (s.emit (.byte (s.busByte addr)))

/-- WRITE_BYTE (R121). -/
def execWriteByte (addr : Addr) (data : Byte) (s : State) : Host.Outcome State Fault Refusal :=
  .next (writeByteBus addr data s)

/-- READ_WORD (R122): two byte reads, the address mod 2^32 (R66). -/
def execReadWord (addr : Addr) (s : State) : Host.Outcome State Fault Refusal :=
  .next (s.emit (.word (le16 (s.busByte addr) (s.busByte (addr + 1)))))

/-- WRITE_WORD (R123): two byte writes, low byte first, each with its own side effects. -/
def execWriteWord (addr : Addr) (data : Half) (s : State) : Host.Outcome State Fault Refusal :=
  .next (writeByteBus (addr + 1) (byteOf data 1) (writeByteBus addr (byteOf data 0) s))

/-- READ_LONG (R124): four byte reads. -/
def execReadLong (addr : Addr) (s : State) : Host.Outcome State Fault Refusal :=
  .next (s.emit (.long
    (le32 (s.busByte addr) (s.busByte (addr + 1)) (s.busByte (addr + 2)) (s.busByte (addr + 3)))))

/-- WRITE_LONG (R125): four byte writes in ascending order, each with its own side effects. -/
def execWriteLong (addr : Addr) (data : Long) (s : State) : Host.Outcome State Fault Refusal :=
  .next (writeByteBus (addr + 3) (byteOf data 3) (writeByteBus (addr + 2) (byteOf data 2)
    (writeByteBus (addr + 1) (byteOf data 1) (writeByteBus addr (byteOf data 0) s))))

/-- QUERY_RANGE (R126): `(base, len, base + len − 1)` of an attached region, or NotAttached. -/
def execQueryRange (region : Region) (s : State) : Host.Outcome State Fault Refusal :=
  if attached s.regions region then
    .next (s.emit (.range (regionBase s.cfg region) (regionLen s.cfg region)
      (regionBase s.cfg region + regionLen s.cfg region - 1)))
  else .next (s.emit .notAttached)

end Sys2Proof.Machine
end

