-- ==== Sys2Proof/Machine/Charset.lean ====
section
/-! DEFINITION. The character-set manager and region attach (45_charset.md): the host's operations but TICK. -/

namespace Sys2Proof.Machine

/-- The result of a load: the first failing check in the order of R284, else OK (R240 to R242). -/
def loadCheck (g : Regions) (tr : Region) (soff : BitVec 32) (gw gh : Byte) (stream : List Byte) : LoadResult :=
  if gw ≠ 8#8 ∨ gh ≠ 8#8 then .badGlyphSize
  else if attached g tr = false then .noTarget
  else if stream.length < soff.toNat + fontBytes then .truncated
  else .ok

/-- The raw bytes a load writes: `stream[soff .. soff + 2047]` (R244). -/
def fontSlice (soff : Nat) (stream : List Byte) : List Byte := (stream.drop soff).take fontBytes

/-- The glyphs of a set: row `y` of glyph `k` is `stream[soff + 8k + y]` (R99, R245). -/
def glyphsOf (soff : Nat) (stream : List Byte) : List Glyph :=
  (List.range glyphsPerSet).map fun k =>
    ⟨Vector.ofFn fun y : Fin 8 => stream.getD (soff + glyphBytes * k + y.val) 0⟩

/-- LOAD_CHARSET (R240): all or nothing (R243); the region bytes without side effects (R244), then a new slot at the
end of the store (R246). -/
def execLoadCharset (region : Region) (toff soff : BitVec 32) (gw gh id tag : Byte) (stream : List Byte) (s : State) :
    Host.Outcome State Fault Refusal :=
  match loadCheck s.regions region soff gw gh stream with
  | .ok =>
    .next (((s.withRegions (regionWriteBytes s.cfg region toff.toNat (fontSlice soff.toNat stream) s.regions)).withCharsets
      (s.charsets ++ [⟨id, tag, glyphsOf soff.toNat stream⟩])).emit (.load .ok))
  | r => .next (s.emit (.load r))

/-- ATTACH_REGION (R248): the region takes its initial image; a second attach changes nothing (R249). -/
def execAttachRegion (region : Region) (s : State) : Host.Outcome State Fault Refusal :=
  if attached s.regions region then .next (s.emit (.attach .alreadyAttached))
  else .next ((s.withRegions (Regions.set s.regions region (initImage s.cfg region))).emit (.attach .ok))

end Sys2Proof.Machine
end

