-- ==== Sys2Proof/Machine/Color.lean ====
section
/-! DEFINITION. The colour-lookup resolver and the palettes (44_color_lookup.md). -/

namespace Sys2Proof.Machine

/-- `Color(r, off)`: bytes blue, green, red and an unread pad; always opaque (R97, R220). -/
def color (sn : Snapshot) (r : Region) (off : Nat) : Pixel :=
  .solid ⟨sn.byte r (off + 2), sn.byte r (off + 1), sn.byte r off⟩

/-- `Resolve(r, base, count)` (R221). -/
def resolve (sn : Snapshot) (r : Region) (base count : Nat) : List Pixel :=
  (List.range count).map fun i => color sn r (base + colorRecord * i)

/-- `fgPal` (R222). -/
def fgPalette (sn : Snapshot) : List Pixel := resolve sn .io fgPaletteBase paletteEntries

/-- `bgPal` (R223). -/
def bgPalette (sn : Snapshot) : List Pixel := resolve sn .io bgPaletteBase paletteEntries

/-- The 256 entries of LUT bank `bank` (R201, R224). -/
def lutBank (sn : Snapshot) (bank : Nat) : List Pixel := resolve sn .io (lutBase + lutStride * bank) lutEntries

/-- Entry `i` of a resolved palette. Every index the rules use is inside its palette. -/
def entry (pal : List Pixel) (i : Nat) : Pixel := pal.getD i .transparent

/-- The informative 32-bit ARGB packing of a pixel; no rule depends on it (R14). -/
def argb : Pixel → BitVec 32
  | .transparent => 0
  | .solid c => (0xFF : Byte) ++ c.r ++ c.g ++ c.b

end Sys2Proof.Machine
end

