-- ==== Sys2Proof/Machine/Flags.lean ====
section
/-! DEFINITION. The bit fields of the control registers and of the text colour byte (30_encoding.md R90 to R96), and the
numbers of the result codes (60_exceptions.md R281 to R283). The video core has no condition codes (10_state.md R33). -/

namespace Sys2Proof.Machine

/-- TEXT_EN, MODE bit 0 (R90). -/
def textEn (mode : Byte) : Bool := mode.getLsbD 0

/-- OVERLAY, MODE bit 1 (R90). -/
def overlayEn (mode : Byte) : Bool := mode.getLsbD 1

/-- GRAPH_EN, MODE bit 2: read and ignored, it has no renderer (R91, R157). -/
def graphEn (mode : Byte) : Bool := mode.getLsbD 2

/-- BITMAP_EN, MODE bit 3 (R90). -/
def bitmapEn (mode : Byte) : Bool := mode.getLsbD 3

/-- BM_EN, BM_CTRL bit 0 (R92). -/
def bmEn (ctrl : Byte) : Bool := ctrl.getLsbD 0

/-- LUT_SEL, BM_CTRL bits 3:1, a bank 0 to 7 (R92, R93). -/
def lutSel (ctrl : Byte) : Nat := (ctrl.extractLsb' 1 3).toNat

/-- CURSOR_EN, CURSOR_CTRL bit 0 (R95). -/
def cursorEn (ctrl : Byte) : Bool := ctrl.getLsbD 0

/-- fgIdx, the high nibble of a colour byte (R96, R174). -/
def fgIdx (col : Byte) : Nat := (col.extractLsb' 4 4).toNat

/-- bgIdx, the low nibble of a colour byte (R96, R174). -/
def bgIdx (col : Byte) : Nat := (col.extractLsb' 0 4).toNat

/-- The numbers of the diagnostic reasons (R281). -/
def diagCode : DiagReason → Nat
  | .noStorage => 1
  | .textConfig => 2
  | .noCharset => 3

/-- The numbers of the LOAD_CHARSET results (R282). -/
def loadCode : LoadResult → Nat
  | .ok => 0
  | .truncated => 1
  | .badGlyphSize => 2
  | .noTarget => 3

/-- The numbers of the ATTACH_REGION results (R283). -/
def attachCode : AttachResult → Nat
  | .ok => 0
  | .alreadyAttached => 1

end Sys2Proof.Machine
end

