-- ==== Sys2Proof/Machine/Raster.lean ====
section
/-! DEFINITION. The drawing layers (42_text_mode.md, 43_bitmap_mode.md), each as what it makes of the pixel at every
column and row of the frame. Machine/RenderLoops.lean has the same layers as the rules' own loops of FrameWrite; that
the two agree is stated in the obligations (notes/assumptions/8.md). -/

namespace Sys2Proof.Machine

/-- A frame under composition: the pixel at column `x` < 640, row `y` < 480 (R32). It never enters the state. -/
structure Raster where
  px : Nat → Nat → Pixel

/-- `FrameWrite` at a pixel inside the frame: a Transparent pixel leaves what lies beneath (R152). -/
def paint (below p : Pixel) : Pixel :=
  match p with
  | .transparent => below
  | .solid c => .solid c

/-- The frame every compose starts from (R153). -/
def blank : Raster := ⟨fun _ _ => .transparent⟩

/-- A placeholder frame: every pixel a draw (R281). -/
def placeholder (draw : Nat) : Raster := ⟨fun x y => Config.diagPixel draw x y⟩

/-! ## Bitmap layer -/

/-- `BitmapLayer` (R200 to R206): bitmap pixel (x, y) lies at frame pixel (x, y); its index is the VRAM byte at
`start + y*W + x`, unbounded; pixels outside W × H keep what they had. -/
def bitmapLayer (sn : Snapshot) (F : Raster) : Raster :=
  let ctrl := sn.byte .io bmCtrl
  if bmEn ctrl then
    let start := sn.read .io bmStart 4
    let W := sn.read .io bmWidth 2
    let H := sn.read .io bmHeight 2
    let lut := lutBank sn (lutSel ctrl)
    ⟨fun x y =>
      if x < W ∧ y < H then
        paint (F.px x y) (entry lut (sn.byte .vram (start + y * W + x)).toNat)
      else F.px x y⟩
  else F

/-! ## Text layer -/

/-- `ValidGrid(C, L)` (R171). -/
def validGrid (C L : Nat) : Bool := decide (1 ≤ C) && decide (C ≤ maxCols) && decide (1 ≤ L) && decide (L ≤ maxLines)

/-- One of the two centring offsets: `((reference − count) / 2) * 8`, the division truncating toward 0 (R12, R172). -/
def gridOffset (reference count : Nat) : Int := Int.tdiv ((reference : Int) - (count : Int)) 2 * 8

/-- `glyphBit(g, x, y)`: bit 7 of a row byte is the leftmost pixel (R98). -/
def glyphBit (g : Glyph) (x y : Nat) : Bool := (g.rows[y]?.getD 0).getLsbD (7 - x)

/-- The glyph of a character code in a set (R174). A set built by a load has all 256 (R245). -/
def glyphOf (cs : CharSet) (ch : Byte) : Glyph := cs.glyphs.getD ch.toNat ⟨Vector.replicate 8 0⟩

/-- The background slot of a recoloured glyph (R176). -/
def backgroundSlot (bg : Nat) (overlay : Bool) (bgPal : List Pixel) : Pixel :=
  if overlay = true ∧ bg = 0 then .transparent else entry bgPal bg

/-- The foreground slot of a recoloured glyph (R177). -/
def foregroundSlot (fg : Nat) (fgPal : List Pixel) (bakedFg : Pixel) : Pixel :=
  if fg = 0 then bakedFg else entry fgPal fg

/-- `Recolor(fgIdx, bgIdx, overlay, fgPal, bgPal)`: the pixels of glyph index 0 and glyph index 1 (R175). -/
def recolor (fg bg : Nat) (overlay : Bool) (fgPal bgPal : List Pixel) (bakedFg : Pixel) : Pixel × Pixel :=
  (backgroundSlot bg overlay bgPal, foregroundSlot fg fgPal bakedFg)

/-- The pixel of the glyph of cell (r, c) at glyph column `dx`, row `dy`, under resolved palettes (R173 to R178). -/
def cellPixel (sn : Snapshot) (cs : CharSet) (overlay : Bool) (fgPal bgPal : List Pixel) (S r c dx dy : Nat) : Pixel :=
  let ch := sn.byte .io (charPlane + r * S + c)
  let col := sn.byte .io (colorPlane + r * S + c)
  let p := recolor (fgIdx col) (bgIdx col) overlay fgPal bgPal sn.cfg.bakedFg
  if glyphBit (glyphOf cs ch) dx dy then p.2 else p.1

/-- The grid of cells: a frame pixel inside the grid's box belongs to one cell (R178, R179, R184). -/
def textGrid (sn : Snapshot) (cs : CharSet) (overlay : Bool) (C L S : Nat) (xOff yOff : Int) (F : Raster) : Raster :=
  let fgPal := fgPalette sn
  let bgPal := bgPalette sn
  ⟨fun x y =>
    let gx := (x : Int) - xOff
    let gy := (y : Int) - yOff
    if 0 ≤ gx ∧ gx < 8 * (C : Int) ∧ 0 ≤ gy ∧ gy < 8 * (L : Int) then
      paint (F.px x y)
        (cellPixel sn cs overlay fgPal bgPal S (gy.toNat / 8) (gx.toNat / 8) (gx.toNat % 8) (gy.toNat % 8))
    else F.px x y⟩

/-- `CursorOrigin`: the stored column and row, not CURSOR_POS (R181). -/
def cursorOrigin (sn : Snapshot) (xOff yOff : Int) : Int × Int :=
  ((sn.read .ramw cursorCol 2 : Int) * 8 + xOff, (sn.read .ramw cursorRow 2 : Int) * 8 + yOff)

/-- `DrawCursor`: an opaque 8 × 8 rectangle over what the grid drew, when CURSOR_EN and the phase is Visible
(R180, R182). -/
def drawCursor (sn : Snapshot) (blink : Blink) (xOff yOff : Int) (F : Raster) : Raster :=
  if cursorEn (sn.byte .io cursorCtrl) = true ∧ blink.phase = .visible then
    let o := cursorOrigin sn xOff yOff
    ⟨fun x y =>
      if o.1 ≤ (x : Int) ∧ (x : Int) < o.1 + 8 ∧ o.2 ≤ (y : Int) ∧ (y : Int) < o.2 + 8 then
        paint (F.px x y) (.solid sn.cfg.cursorColor)
      else F.px x y⟩
  else F

/-- `TextLayer` (R170): validity first, then the character set, then the grid and the cursor. The active set is slot 0
(R247). -/
def textLayer (sn : Snapshot) (blink : Blink) (overlay : Bool) (draw : Nat) (F : Raster) : Raster × List DiagReason :=
  let C := sn.read .ramw colsVisible 2
  let L := sn.read .ramw linesVisible 2
  let S := sn.read .ramw lineStride 2
  if validGrid C L then
    match sn.charsets with
    | [] => (placeholder draw, [.noCharset])
    | cs :: _ =>
      let xOff := gridOffset refCols C
      let yOff := gridOffset refRows L
      (drawCursor sn blink xOff yOff (textGrid sn cs overlay C L S xOff yOff F), [])
  else (placeholder draw, [.textConfig])

end Sys2Proof.Machine
end

