-- ==== Sys2Proof/Machine/Tick.lean ====
section
/-! DEFINITION. The frame composer and the TICK operation (41_frame_composer.md). -/

namespace Sys2Proof.Machine

/-- All three regions are attached (R155). -/
def allAttached (g : Regions) : Bool := attached g .vram && attached g .ramw && attached g .io

/-- `Compose(snap, blink)`: bitmap layer first, text layer second, each gated by its MODE bit (R151, R154, R157). `draw`
numbers the placeholder this compose would draw. -/
def composeRaster (sn : Snapshot) (blink : Blink) (draw : Nat) : Raster × List DiagReason :=
  if allAttached sn.regions then
    let mode := sn.byte .io modeReg
    let F := if bitmapEn mode then bitmapLayer sn blank else blank
    if textEn mode then textLayer sn blink (overlayEn mode) draw F else (F, [])
  else (placeholder draw, [.noStorage])

/-- The 640 × 480 array of a raster (R32). -/
def Frame.ofRaster (F : Raster) : Frame :=
  ⟨(List.range frameH).map fun y => (List.range frameW).map fun x => F.px x y⟩

/-- The pixel of a frame at column `x`, row `y`. -/
def Frame.pixel (f : Frame) (x y : Nat) : Pixel := (f.rows.getD y []).getD x .transparent

/-- `Compose(snap, blink)` as the frame that is presented and the diagnostic set (R150, R151). -/
def compose (sn : Snapshot) (blink : Blink) (draw : Nat) : Frame × List DiagReason :=
  let c := composeRaster sn blink draw
  (Frame.ofRaster c.1, c.2)

/-- The count of placeholder draws after a compose with these diagnostics. -/
def drawsAfter (draws : Nat) (diag : List DiagReason) : Nat := if diag = [] then draws else draws + 1

/-- TICK (R150): compose from one snapshot with the blink phase before this tick's step, present, then BlinkStep. -/
def execTick (s : State) : Host.Outcome State Fault Refusal :=
  let c := compose (snapshotOf s) s.blink s.draws
  .next (((s.emit (.tick c.1 c.2)).withDraws (drawsAfter s.draws c.2)).withBlink (blinkStep s.cfg s.blink))

end Sys2Proof.Machine
end

