-- ==== Sys2Proof/Machine/Dispatch.lean ====
section
/-! DEFINITION. One arm for each operation of the opcode table (30_encoding.md R111). -/

namespace Sys2Proof.Machine

open Sys2Proof

-- Each arm calls the operation's own meaning.
def exec (i : Instr) (s : State) : Host.Outcome State Fault Refusal :=
  match i with
  | .readByte addr => Sys2Proof.Machine.execReadByte addr s
  | .writeByte addr data => Sys2Proof.Machine.execWriteByte addr data s
  | .readWord addr => Sys2Proof.Machine.execReadWord addr s
  | .writeWord addr data => Sys2Proof.Machine.execWriteWord addr data s
  | .readLong addr => Sys2Proof.Machine.execReadLong addr s
  | .writeLong addr data => Sys2Proof.Machine.execWriteLong addr data s
  | .queryRange region => Sys2Proof.Machine.execQueryRange region s
  | .tick => Sys2Proof.Machine.execTick s
  | .loadCharset region toff soff gw gh id tag stream => Sys2Proof.Machine.execLoadCharset region toff soff gw gh id tag stream s
  | .attachRegion region => Sys2Proof.Machine.execAttachRegion region s

end Sys2Proof.Machine
end

