-- ==== Sys2Proof/Machine/Issue.lean ====
section
/-! DEFINITION. How the next operation of the total order reaches the core (20_memory.md R70, R71): the agent whose turn
it is, the operation at the front of its queue, and how an operation is put there (notes/assumptions/2.md). -/

namespace Sys2Proof.Machine

/-- What the schedule offers the core next. -/
inductive Issued where
  /-- Nothing is issued: no turn is left, or the agent whose turn it is has issued nothing. -/
  | nothing (s : State)
  /-- An operation, with the state that has taken it from its agent's queue. -/
  | op (i : Instr) (s : State)
  /-- The bytes at the front of the queue are refused. -/
  | refuse (r : Refusal)

/-- Takes the next turn of the schedule (R70) and, if its agent has issued an operation, that operation (R71). An agent
with nothing to issue lets its turn pass; neither agent waits for the other (R72). -/
def takeNext (s : State) : Issued :=
  match s.schedule with
  | [] => .nothing s
  | a :: later =>
    match s.queue a with
    | [] => .nothing (s.withSchedule later)
    | b :: bs =>
      match decode (b :: bs) with
      | .error e => .refuse (.undecodable e)
      | .ok (i, rest) =>
        if issuer i = a then .op i ((s.withSchedule later).withQueue a rest) else .refuse (.foreignOperation a)

/-- The agent whose queue an opcode-table word goes into: the one that issues it. -/
def tableIssuer (nbits w : Nat) : Agent :=
  match decodeTableWord nbits w with
  | some i => issuer i
  | none => .cpuSide

/-- The state in which the bytes of an opcode-table word are what the schedule offers next. -/
def placeNext (s : State) (nbits w : Nat) : State :=
  (s.withSchedule (tableIssuer nbits w :: s.schedule)).withQueue (tableIssuer nbits w)
    (tableBytes nbits w ++ s.queue (tableIssuer nbits w))

end Sys2Proof.Machine
end

