-- ==== Sys2Proof/Machine/Step.lean ====
section
/-! DEFINITION. One step: one operation of the total order, atomically (20_memory.md R67, R70, R71). -/

namespace Sys2Proof.Machine

/-- One step. Parameters that break R10 have no model and are refused. With nothing issued the machine stays as it is. -/
def step (s : State) : Host.Outcome State Fault Refusal :=
  if configValid s.cfg then
    match takeNext s with
    | .nothing t => .next t
    | .op i t => exec i t
    | .refuse r => .refused r
  else .refused .invalidConfig

/-- An agent issues the operation of an opcode-table word, and it is that agent's turn. -/
def State.withFetchWord (s : State) (nbits w : Nat) : State := placeNext s nbits w

end Sys2Proof.Machine
end

