-- ==== Sys2Proof/Machine/Pseudo.lean ====
section
/-! DEFINITION. The pseudo-operations of 30_encoding.md R117 and the names of R116. Nothing here is an operation of the
video core: a pseudo-operation stands for a sequence of them. -/

namespace Sys2Proof.Machine

/-- The bus address of an offset in a region (R116, for any LAYOUT). -/
def busAddr (cfg : Config) (r : Region) (off : Nat) : Addr := BitVec.ofNat 32 (regionBase cfg r + off)

/-- The pseudo-operations of R117. -/
inductive Pseudo where
  | setCursor (c r : Half)
  | setGrid (C L S : Half)
  | fgPal (i : Fin 16) (r g b : Byte)
  | bgPal (i : Fin 16) (r g b : Byte)
  | lut (k : Fin 8) (j : Fin 256) (r g b : Byte)
  | fill (a : Addr) (n : Nat) (d : Byte)
  | ticks (n : Nat)
  /-- `stride` is the S last set by the program. -/
  | putCell (stride r c : Nat) (ch col : Byte)
deriving DecidableEq, Repr

/-- The long whose bytes are a colour record: `(r << 16) | (g << 8) | b` (R117). -/
def recordLong (r g b : Byte) : Long := le32 b g r 0

/-- `wb a, d ; wb a+1, d ; …`, `n` writes (R117). -/
def fillOps (a : Addr) (d : Byte) : Nat → List Instr
  | 0 => []
  | n + 1 => .writeByte a d :: fillOps (a + 1) d n

/-- The operations a pseudo-operation stands for (R117). -/
def expand (cfg : Config) : Pseudo → List Instr
  | .setCursor c r => [.writeWord (busAddr cfg .ramw cursorCol) c, .writeWord (busAddr cfg .ramw cursorRow) r]
  | .setGrid C L S =>
    [.writeWord (busAddr cfg .ramw colsVisible) C, .writeWord (busAddr cfg .ramw linesVisible) L,
      .writeWord (busAddr cfg .ramw lineStride) S]
  | .fgPal i r g b => [.writeLong (busAddr cfg .io (fgPaletteBase + 4 * i.val)) (recordLong r g b)]
  | .bgPal i r g b => [.writeLong (busAddr cfg .io (bgPaletteBase + 4 * i.val)) (recordLong r g b)]
  | .lut k j r g b => [.writeLong (busAddr cfg .io (lutBase + 1024 * k.val + 4 * j.val)) (recordLong r g b)]
  | .fill a n d => fillOps a d n
  | .ticks n => List.replicate n .tick
  | .putCell stride r c ch col =>
    [.writeByte (busAddr cfg .io (charPlane + r * stride + c)) ch,
      .writeByte (busAddr cfg .io (colorPlane + r * stride + c)) col]

/-- The syntax name of each operation (R116). -/
def asmName : Instr → String
  | .readByte _ => "rb"
  | .writeByte _ _ => "wb"
  | .readWord _ => "rw"
  | .writeWord _ _ => "ww"
  | .readLong _ => "rl"
  | .writeLong _ _ => "wl"
  | .queryRange _ => "qr"
  | .tick => "tick"
  | .loadCharset _ _ _ _ _ _ _ _ => "load"
  | .attachRegion _ => "attach"

/-- How a region operand is written (R116). -/
def regionName : Region → String
  | .vram => "VRAM"
  | .ramw => "RAMW"
  | .io => "IO"

end Sys2Proof.Machine
end

