-- ==== Sys2Proof/Machine/RenderLoops.lean ====
section
/-! DEFINITION. The layers as the rules write them: loops of `FrameWrite` on a canvas with every integer coordinate
(41_frame_composer.md R151, R152; 42_text_mode.md R170, R178 to R180; 43_bitmap_mode.md R200). Machine/Raster.lean is
what a TICK runs; the obligations state that the two agree (notes/assumptions/8.md). -/

namespace Sys2Proof.Machine

/-- A frame that a loop writes, over every integer column and row. -/
abbrev Canvas := Int → Int → Pixel

/-- `FrameWrite(F, x, y, p)`: clip, then transparency, then the write (R152). -/
def frameWrite (F : Canvas) (x y : Int) (p : Pixel) : Canvas :=
  if x < 0 ∨ (frameW : Int) ≤ x ∨ y < 0 ∨ (frameH : Int) ≤ y then F
  else if p = .transparent then F
  else fun x' y' => if x' = x ∧ y' = y then p else F x' y'

/-- `for i in 0 .. n−1`. -/
def forUpTo (n : Nat) (body : Nat → Canvas → Canvas) (F : Canvas) : Canvas :=
  (List.range n).foldl (fun G i => body i G) F

/-- `BitmapLayer(F, snap)` as in R200. -/
def bitmapLoop (sn : Snapshot) (F : Canvas) : Canvas :=
  let ctrl := sn.byte .io bmCtrl
  if bmEn ctrl then
    let start := sn.read .io bmStart 4
    let W := sn.read .io bmWidth 2
    let H := sn.read .io bmHeight 2
    let lut := lutBank sn (lutSel ctrl)
    forUpTo H (fun y => forUpTo W fun x G =>
      frameWrite G x y (entry lut (sn.byte .vram (start + y * W + x)).toNat)) F
  else F

/-- `DrawGlyph(F, g, X, Y, p0, p1)` as in R178. -/
def drawGlyphLoop (g : Glyph) (X Y : Int) (p0 p1 : Pixel) (F : Canvas) : Canvas :=
  forUpTo 8 (fun y => forUpTo 8 fun x G => frameWrite G (X + x) (Y + y) (if glyphBit g x y then p1 else p0)) F

/-- `DrawCursor(F, snap, blink, xOff, yOff)` as in R180. -/
def drawCursorLoop (sn : Snapshot) (blink : Blink) (xOff yOff : Int) (F : Canvas) : Canvas :=
  if cursorEn (sn.byte .io cursorCtrl) = true ∧ blink.phase = .visible then
    let o := cursorOrigin sn xOff yOff
    forUpTo 8 (fun y => forUpTo 8 fun x G => frameWrite G (o.1 + x) (o.2 + y) (.solid sn.cfg.cursorColor)) F
  else F

/-- The cells of the grid in row-major order as in R170 and R179. -/
def textGridLoop (sn : Snapshot) (cs : CharSet) (overlay : Bool) (C L S : Nat) (xOff yOff : Int) (F : Canvas) : Canvas :=
  let fgPal := fgPalette sn
  let bgPal := bgPalette sn
  forUpTo L (fun r => forUpTo C fun c G =>
    let ch := sn.byte .io (charPlane + r * S + c)
    let col := sn.byte .io (colorPlane + r * S + c)
    let p := recolor (fgIdx col) (bgIdx col) overlay fgPal bgPal sn.cfg.bakedFg
    drawGlyphLoop (glyphOf cs ch) ((c : Int) * 8 + xOff) ((r : Int) * 8 + yOff) p.1 p.2 G) F

/-- `TextLayer(F, snap, blink, overlay, diag)` as in R170. -/
def textLoop (sn : Snapshot) (blink : Blink) (overlay : Bool) (draw : Nat) (F : Canvas) : Canvas × List DiagReason :=
  let C := sn.read .ramw colsVisible 2
  let L := sn.read .ramw linesVisible 2
  let S := sn.read .ramw lineStride 2
  if validGrid C L then
    match sn.charsets with
    | [] => (fun x y => (placeholder draw).px x.toNat y.toNat, [.noCharset])
    | cs :: _ =>
      let xOff := gridOffset refCols C
      let yOff := gridOffset refRows L
      (drawCursorLoop sn blink xOff yOff (textGridLoop sn cs overlay C L S xOff yOff F), [])
  else (fun x y => (placeholder draw).px x.toNat y.toNat, [.textConfig])

/-- `Compose(snap, blink)` as in R151. -/
def composeLoop (sn : Snapshot) (blink : Blink) (draw : Nat) : Canvas × List DiagReason :=
  if allAttached sn.regions then
    let mode := sn.byte .io modeReg
    let F : Canvas := fun _ _ => .transparent
    let F := if bitmapEn mode then bitmapLoop sn F else F
    if textEn mode then textLoop sn blink (overlayEn mode) draw F else (F, [])
  else (fun x y => (placeholder draw).px x.toNat y.toNat, [.noStorage])

end Sys2Proof.Machine
end

