-- ==== Sys2Proof/Safety.lean ====
section
/-! DEFINITION. The invariant of a run and the other predicates the statements use (10_state.md R38). -/

namespace Sys2Proof.Machine

/-- A region's bytes, if it has any, are in canonical form and inside the region (R20). -/
def regionOk (cfg : Config) (g : Regions) (r : Region) : Bool :=
  match Regions.get g r with
  | some m => Memory.wf m && Memory.fits m (regionLen cfg r)
  | none => true

/-- A character set has a glyph for every code (R31, R174). -/
def charsetOk (cs : CharSet) : Bool := decide (cs.glyphs.length = glyphsPerSet)

/-- A frame is a 640 × 480 array (R32). -/
def frameOk (f : Frame) : Bool :=
  decide (f.rows.length = frameH) && f.rows.all fun row => decide (row.length = frameW)

/-- The diagnostic set of a TICK holds at most one reason (R281, R284), and its frame has its size (R32). -/
def outputOk : Output → Bool
  | .tick f diag => frameOk f && decide (diag.length ≤ 1)
  | _ => true

/-- What every step keeps: admitted parameters (R10), region bytes in form (R20), whole character sets (R31), the
countdown in [1, BLINK_RATE] (R30, R38), well-shaped outputs (R32, R35). -/
def State.inv (s : State) : Bool :=
  configValid s.cfg &&
    (regionOk s.cfg s.regions .vram && regionOk s.cfg s.regions .ramw && regionOk s.cfg s.regions .io) &&
    s.charsets.all charsetOk &&
    (decide (1 ≤ s.blink.countdown) && decide (s.blink.countdown ≤ s.cfg.blinkRate)) &&
    s.outputs.all outputOk

/-- Runs operations in order, stopping where one gives no next state. -/
def execAll : List Instr → State → Host.Outcome State Fault Refusal
  | [], s => .next s
  | i :: is, s =>
    match exec i s with
    | .next t => execAll is t
    | .fault f => .fault f
    | .refused r => .refused r

/-- Both states agree on everything but the region bytes: parameters, character sets, blink, queues, schedule, draws,
outputs, and which regions are attached. -/
def sameButBytes (s t : State) : Prop :=
  t.cfg = s.cfg ∧ t.charsets = s.charsets ∧ t.blink = s.blink ∧ t.cpuQueue = s.cpuQueue ∧ t.hostQueue = s.hostQueue ∧
    t.schedule = s.schedule ∧ t.draws = s.draws ∧ t.outputs = s.outputs ∧
    ∀ r, attached t.regions r = attached s.regions r

/-! ## The bus -/

/-- The address is the bus address of offset `off` of region `r`, and `r` is attached (R61). -/
def mapped (s : State) (r : Region) (off : Nat) (a : Addr) : Prop :=
  attached s.regions r = true ∧ off < regionLen s.cfg r ∧ a.toNat = regionBase s.cfg r + off

/-- The address is in no attached region (R61). -/
def unmapped (s : State) (a : Addr) : Prop := ∀ r off, ¬ mapped s r off a

/-- The byte of a region at an offset in this state. -/
def State.byteAt (s : State) (r : Region) (off : Nat) : Byte := regionByte s.cfg s.regions r off

/-! ## Frames -/

/-- A TICK in this state presents this frame with this diagnostic set (R150, R156). -/
def presents (s : State) (f : Frame) (diag : List DiagReason) : Prop :=
  ∃ t, exec .tick s = .next t ∧ t.outputs = s.outputs ++ [.tick f diag]

/-- The opaque colour of the 4-byte record at an IO offset: blue, green, red, pad (R97). -/
def recordAt (s : State) (off : Nat) : Pixel :=
  .solid ⟨s.byteAt .io (off + 2), s.byteAt .io (off + 1), s.byteAt .io off⟩

/-- The pixel the text layer is drawn over: the bitmap layer's where MODE bit 3 is set, else Transparent (R154). -/
def beneath (s : State) (x y : Nat) : Pixel :=
  if (s.byteAt .io modeReg).getLsbD 3 then (bitmapLayer (snapshotOf s) blank).px x y else .transparent

/-- A TICK in this state draws the text layer, with slot 0 holding `cs` (R154, R155, R170, R171, R183). -/
def drawsText (s : State) (cs : CharSet) : Prop :=
  (∀ r, attached s.regions r = true) ∧ (s.byteAt .io modeReg).getLsbD 0 = true ∧
    1 ≤ ramField s colsVisible 2 ∧ ramField s colsVisible 2 ≤ 128 ∧
    1 ≤ ramField s linesVisible 2 ∧ ramField s linesVisible 2 ≤ 64 ∧ s.charsets.head? = some cs

/-- The horizontal pixel offset of the grid (R172). -/
def xOffOf (s : State) : Int := gridOffset 80 (ramField s colsVisible 2)

/-- The vertical pixel offset of the grid (R172). -/
def yOffOf (s : State) : Int := gridOffset 60 (ramField s linesVisible 2)

/-- The frame pixel lies in the 8 × 8 rectangle of the cursor (R180, R181). -/
def inCursorRect (s : State) (x y : Nat) : Prop :=
  (ramField s cursorCol 2 : Int) * 8 + xOffOf s ≤ x ∧ (x : Int) < (ramField s cursorCol 2 : Int) * 8 + xOffOf s + 8 ∧
    (ramField s cursorRow 2 : Int) * 8 + yOffOf s ≤ y ∧ (y : Int) < (ramField s cursorRow 2 : Int) * 8 + yOffOf s + 8

/-- The cursor is enabled and its phase is Visible (R180). -/
def cursorShown (s : State) : Prop := (s.byteAt .io cursorCtrl).getLsbD 0 = true ∧ s.blink.phase = .visible

/-- The bytes that no rule of rendering reads: those of RAMW outside the counts, the stride, the column and the row
(R133, R181), and in IO the unnamed bytes, the pads of colour records and the font memory (R26, R76). -/
def unreadByte : Region → Nat → Prop
  | .vram, _ => False
  | .ramw, off => off < 0x08 ∨ 0x12 ≤ off
  | .io, off =>
    (0x0001 ≤ off ∧ off < 0x0010) ∨ (0x0011 ≤ off ∧ off < 0x0100) ∨ (0x0109 ≤ off ∧ off < 0x1F40) ∨
      (0x1F40 ≤ off ∧ off < 0x1FC0 ∧ off % 4 = 3) ∨ (0x1FC0 ≤ off ∧ off < 0x2000) ∨
      (0x2000 ≤ off ∧ off < 0x4000 ∧ off % 4 = 3) ∨ (0x4000 ≤ off ∧ off < 0xA000)

end Sys2Proof.Machine
end

