-- ==== Sys2Proof/Certificates/Slice0/Obligations.lean ====
section
/-! DEFINITION. The statements about the model. Each docstring names the rule of spec/ it formalises; OBLIGATIONS.json
lists them. -/

open Sys2Proof Sys2Proof.Machine

/-! ## Power-on, configuration, the step -/

/-- R261 (with R36, R310): for every choice of the parameters the power-on state has blink (Visible, BLINK_RATE), no
region attached, no character set and no output; reset is that state for the default parameters, whose BLINK_RATE is 10
(R9). -/
def Obligations.PowerOnState : Prop :=
  (∀ cfg : Config, (State.powerOn cfg).blink = ⟨.visible, cfg.blinkRate⟩ ∧ (State.powerOn cfg).cfg = cfg ∧
      (∀ r, attached (State.powerOn cfg).regions r = false) ∧ (State.powerOn cfg).charsets = [] ∧
      (State.powerOn cfg).outputs = []) ∧
    State.reset = State.powerOn Config.default ∧ Config.default.blinkRate = 10

/-- The invariant of `StepKeepsInvariant` holds at power-on for all admitted parameters, and at reset. -/
def Obligations.PowerOnSatisfiesInvariant : Prop :=
  (∀ cfg : Config, configValid cfg = true → (State.powerOn cfg).inv = true) ∧ State.reset.inv = true

/-- Every step keeps: parameters that R10 admits, region bytes in canonical form and inside their region (R20), a glyph
for every code in every loaded set (R31), the countdown in [1, BLINK_RATE] (R38), 640 × 480 frames (R32). -/
def Obligations.StepKeepsInvariant : Prop :=
  ∀ s t : State, s.inv = true → step s = .next t → t.inv = true

/-- A step runs the operation at the front of the queue of the agent whose turn it is (R70, R71; the queues and the
schedule are the model's, notes/assumptions/2.md). -/
def Obligations.StepRunsScheduledOperation : Prop :=
  ∀ (s : State) (a : Agent) (later : List Agent) (i : Instr) (rest : List Byte), configValid s.cfg = true →
    s.schedule = a :: later → decode (s.queue a) = .ok (i, rest) → issuer i = a →
    step s = exec i ((s.withSchedule later).withQueue a rest)

/-- The model's choice (notes/assumptions/2.md): with no turn left nothing changes, and the turn of an agent that has
issued nothing passes and changes nothing else. -/
def Obligations.IdleTurnChangesNothing : Prop :=
  ∀ s : State, configValid s.cfg = true →
    (s.schedule = [] → step s = .next s) ∧
      ∀ a later, s.schedule = a :: later → s.queue a = [] → step s = .next (s.withSchedule later)

/-- An opcode-table word that decodes, placed as the next operation, is what the next step runs, on the state it was
placed in (the model's choice, notes/assumptions/2.md). -/
def Obligations.PlacedWordIsTheNextOperation : Prop :=
  ∀ (s : State) (nbits w : Nat) (i : Instr), configValid s.cfg = true → decodeTableWord nbits w = some i →
    step (s.withFetchWord nbits w) = exec i s

/-- R10: the parameters are refused exactly when they break a constraint of R10 (the canonical form of the images is
the model's representation, notes/assumptions/11.md). -/
def Obligations.InvalidParametersAreRefused : Prop :=
  ∀ s : State, step s = .refused .invalidConfig ↔
    ¬ (1 ≤ s.cfg.blinkRate ∧
      (∀ r, 1 ≤ regionLen s.cfg r ∧ regionBase s.cfg r + regionLen s.cfg r ≤ 2 ^ 32 ∧
        Memory.wf (initImage s.cfg r) = true ∧ ∀ c ∈ initImage s.cfg r, c.1 < regionLen s.cfg r) ∧
      (∀ r q, r ≠ q → regionBase s.cfg r + regionLen s.cfg r ≤ regionBase s.cfg q ∨
        regionBase s.cfg q + regionLen s.cfg q ≤ regionBase s.cfg r) ∧
      0x12 ≤ regionLen s.cfg .ramw ∧ 0x10000 ≤ regionLen s.cfg .io)

/-- The parameters never change in a run: the configuration is a parameter, not state (10_state.md, R9). -/
def Obligations.StepKeepsParameters : Prop :=
  ∀ s t : State, step s = .next t → t.cfg = s.cfg

/-- R71 (2): a step takes operations only from the queue of the agent whose turn it is, from its front, and uses up
that turn; what the agent has yet to run keeps its order. -/
def Obligations.StepKeepsEachAgentsOrder : Prop :=
  ∀ (s t : State) (a : Agent) (later : List Agent), s.schedule = a :: later → step s = .next t →
    t.schedule = later ∧ (∀ b, b ≠ a → t.queue b = s.queue b) ∧
      (s.queue a = t.queue a ∨ ∃ i, issuer i = a ∧ decode (s.queue a) = .ok (i, t.queue a))

/-- R72: every operation is always enabled and completes, whatever the state. -/
def Obligations.EveryOperationCompletes : Prop :=
  ∀ (i : Instr) (s : State), ∃ t, exec i s = .next t

/-! ## Encoding -/

/-- The decoder inverts the encoder on every well-formed operation, whatever bytes follow (R111, R115). -/
def Obligations.DecodeInvertsEncode : Prop :=
  ∀ (i : Instr) (rest : List Byte), i.wf = true → decode (encode i ++ rest) = .ok (i, rest)

/-- What the decoder accepts is the encoding of a well-formed operation, so each byte string has one reading (R111). -/
def Obligations.EncodeInvertsDecode : Prop :=
  ∀ (bs rest : List Byte) (i : Instr), decode bs = .ok (i, rest) → encode i ++ rest = bs ∧ i.wf = true

/-- R113: an opcode byte outside R111, a region operand of 0x03 to 0xFF and a string shorter than its format are
refused by the decoder, and a refused string never reaches the core (here: at the front of the queue of the agent whose
turn it is, notes/assumptions/2.md and 9.md). -/
def Obligations.UnspelledBytesAreRefused : Prop :=
  (∀ (op : Byte) (bs : List Byte),
      op.toNat ∉ [0x01, 0x02, 0x03, 0x04, 0x05, 0x06, 0x07, 0x10, 0x20, 0x30] → ∃ e, decode (op :: bs) = .error e) ∧
    (∀ (op code : Byte) (bs : List Byte), op.toNat ∈ [0x07, 0x20, 0x30] → 3 ≤ code.toNat →
      ∃ e, decode (op :: code :: bs) = .error e) ∧
    (∀ (op : Byte) (bs : List Byte) (len : Nat), fixedLength op.toNat = some len → (op :: bs).length < len →
      ∃ e, decode (op :: bs) = .error e) ∧
    (∀ (head stream : List Byte) (n0 n1 n2 n3 : Byte), head.length = 14 → head.head? = some 0x20#8 →
      stream.length < (le32 n0 n1 n2 n3).toNat → ∃ e, decode (head ++ n0 :: n1 :: n2 :: n3 :: stream) = .error e) ∧
    ∀ (s : State) (a : Agent) (later : List Agent) (e : DecodeError), configValid s.cfg = true →
      s.schedule = a :: later → s.queue a ≠ [] → decode (s.queue a) = .error e → step s = .refused (.undecodable e)

/-- R114: an operation takes as many bytes as its opcode's format says, and LOAD_CHARSET as many more as its stream. -/
def Obligations.DecodedLengthIsTheFormats : Prop :=
  ∀ (bs rest : List Byte) (i : Instr), decode bs = .ok (i, rest) →
    bs.length = rest.length +
      match i with
      | .tick => 1
      | .queryRange _ => 2
      | .attachRegion _ => 2
      | .readByte _ => 5
      | .readWord _ => 5
      | .readLong _ => 5
      | .writeByte _ _ => 6
      | .writeWord _ _ => 7
      | .writeLong _ _ => 9
      | .loadCharset _ _ _ _ _ _ _ stream => 18 + stream.length

/-- Byte strings written out from R111 (the vectors X1 to X7 and X14 of 95_test_vectors.md, and READ_BYTE and
READ_WORD) decode to what they stand for. -/
def Obligations.SpelledOutBytesDecode : Prop :=
  decode [0x10] = .ok (.tick, []) ∧
    decode [0x01, 0x78, 0x56, 0x34, 0x12] = .ok (.readByte 0x12345678, []) ∧
    decode [0x02, 0x00, 0x00, 0xAF, 0x00, 0x01] = .ok (.writeByte 0xAF0000 0x01, []) ∧
    decode [0x03, 0x0E, 0x00, 0x00, 0x00] = .ok (.readWord 0x0E, []) ∧
    decode [0x04, 0x0E, 0x00, 0x00, 0x00, 0xFF, 0x00] = .ok (.writeWord 0x0E 0x00FF, []) ∧
    decode [0x06, 0x7C, 0x1F, 0xAF, 0x00, 0xFF, 0xFF, 0xFF, 0x00] = .ok (.writeLong 0xAF1F7C 0x00FFFFFF, []) ∧
    decode [0x05, 0x04, 0x00, 0x00, 0x00] = .ok (.readLong 0x04, []) ∧
    decode [0x07, 0x02] = .ok (.queryRange .io, []) ∧
    decode [0x30, 0x01] = .ok (.attachRegion .ramw, []) ∧
    decode [0x20, 0x02, 0x00, 0x80, 0x00, 0x00, 0x00, 0x00, 0x00, 0x00, 0x08, 0x08, 0x01, 0x00, 0x07, 0x00, 0x00, 0x00,
        1, 2, 3, 4, 5, 6, 7] = .ok (.loadCharset .io 0x8000 0 8 8 1 0 [1, 2, 3, 4, 5, 6, 7], [])

/-! ## Reads -/

/-- R120: READ_BYTE returns the byte its address decodes to, 0 where it is unmapped, and changes nothing. -/
def Obligations.ReadByteReturnsTheByte : Prop :=
  ∀ (s : State) (a : Addr), configValid s.cfg = true → ∃ v, exec (.readByte a) s = .next (s.emit (.byte v)) ∧
    (∀ r off, mapped s r off a → v = s.byteAt r off) ∧ (unmapped s a → v = 0)

/-- R122: READ_WORD returns two byte reads, the second address mod 2^32, low byte first, and changes nothing. -/
def Obligations.ReadWordIsTwoByteReads : Prop :=
  ∀ (s : State) (a : Addr), ∃ b0 b1 v, exec (.readByte a) s = .next (s.emit (.byte b0)) ∧
    exec (.readByte (BitVec.ofNat 32 (a.toNat + 1))) s = .next (s.emit (.byte b1)) ∧
    exec (.readWord a) s = .next (s.emit (.word v)) ∧ v.toNat = b0.toNat + b1.toNat * 2 ^ 8

/-- R124: READ_LONG returns four byte reads, addresses mod 2^32, low byte first, and changes nothing. -/
def Obligations.ReadLongIsFourByteReads : Prop :=
  ∀ (s : State) (a : Addr), ∃ b0 b1 b2 b3 v, exec (.readByte a) s = .next (s.emit (.byte b0)) ∧
    exec (.readByte (BitVec.ofNat 32 (a.toNat + 1))) s = .next (s.emit (.byte b1)) ∧
    exec (.readByte (BitVec.ofNat 32 (a.toNat + 2))) s = .next (s.emit (.byte b2)) ∧
    exec (.readByte (BitVec.ofNat 32 (a.toNat + 3))) s = .next (s.emit (.byte b3)) ∧
    exec (.readLong a) s = .next (s.emit (.long v)) ∧
    v.toNat = b0.toNat + b1.toNat * 2 ^ 8 + b2.toNat * 2 ^ 16 + b3.toNat * 2 ^ 24

/-- R126: QUERY_RANGE returns (base, len, base + len − 1) of an attached region and NotAttached of any other. -/
def Obligations.QueryRangeReturnsTheWindow : Prop :=
  ∀ (s : State) (r : Region),
    (attached s.regions r = true → exec (.queryRange r) s =
      .next (s.emit (.range (regionBase s.cfg r) (regionLen s.cfg r) (regionBase s.cfg r + regionLen s.cfg r - 1)))) ∧
    (attached s.regions r = false → exec (.queryRange r) s = .next (s.emit .notAttached))

/-- What the spec derives in R37 from R30 and R31: a CPU-side read returns nothing of the hidden state (blink, glyph
store); its result depends on the parameters and the region bytes alone. -/
def Obligations.ReadsDoNotSeeHiddenState : Prop :=
  ∀ (s t : State) (i : Instr), s.cfg = t.cfg → s.regions = t.regions →
    (∃ a, i = .readByte a ∨ i = .readWord a ∨ i = .readLong a) ∨ (∃ r, i = .queryRange r) →
    ∃ o, exec i s = .next (s.emit o) ∧ exec i t = .next (t.emit o)

/-! ## Byte writes -/

/-- R63: a byte read of an unmapped address returns 0 and a byte write to one is a no-op. -/
def Obligations.UnmappedAccessesDoNothing : Prop :=
  ∀ (s : State) (a : Addr) (d : Byte), unmapped s a →
    exec (.readByte a) s = .next (s.emit (.byte 0)) ∧ exec (.writeByte a d) s = .next s

/-- R24, and in the same way the other bytes without a side effect (R127): a byte write outside SCREEN_BASE, CURSOR_COL
and CURSOR_ROW stores the byte, a read returns it, and nothing else happens. -/
def Obligations.PlainByteWrite : Prop :=
  ∀ (s : State) (r : Region) (off : Nat) (a : Addr) (d : Byte), configValid s.cfg = true → mapped s r off a →
    (r = .ramw → 0x04 ≤ off ∧ off < 0x0E ∨ 0x12 ≤ off) →
    ∃ t, exec (.writeByte a d) s = .next t ∧ exec (.readByte a) t = .next (t.emit (.byte d)) ∧
      t.byteAt r off = d ∧ (∀ q p, (q, p) ≠ (r, off) → t.byteAt q p = s.byteAt q p) ∧ sameButBytes s t

/-- R130, the frame: a byte write to SCREEN_BASE stores its byte, changes no byte but that one and CURSOR_POS, and
leaves the blink state. -/
def Obligations.ScreenBaseWrite : Prop :=
  ∀ (s : State) (off : Nat) (a : Addr) (d : Byte), configValid s.cfg = true → mapped s .ramw off a → off < 0x04 →
    ∃ t, exec (.writeByte a d) s = .next t ∧ t.byteAt .ramw off = d ∧ sameButBytes s t ∧
      ∀ q p, (q, p) ≠ (.ramw, off) → (q ≠ .ramw ∨ p < 0x04 ∨ 0x08 ≤ p) → t.byteAt q p = s.byteAt q p

/-- R130: every CPU-side byte write to SCREEN_BASE, CURSOR_COL or CURSOR_ROW leaves CURSOR_POS = (base + row*S + col)
mod 2^32 of the stored fields; a write to LINE_STRIDE leaves CURSOR_POS alone. -/
def Obligations.CursorPosIsRecomputed : Prop :=
  ∀ (s : State) (off : Nat) (a : Addr) (d : Byte), configValid s.cfg = true → mapped s .ramw off a →
    ∃ t, exec (.writeByte a d) s = .next t ∧
      (off < 0x04 ∨ 0x0E ≤ off ∧ off < 0x12 → ramField t 0x04 4 =
        (ramField t 0x00 4 + ramField t 0x10 2 * ramField t 0x0C 2 + ramField t 0x0E 2) % 2 ^ 32) ∧
      (0x0C ≤ off ∧ off < 0x0E → ramField t 0x04 4 = ramField s 0x04 4)

/-- R128: a byte write to CURSOR_COL leaves the column clamped: `max(0, min(v, C − 1))` of the field after the byte
store, unsigned, with C as stored; no byte changes outside CURSOR_POS and CURSOR_COL; the blink restarts (R131). -/
def Obligations.CursorColumnWrite : Prop :=
  ∀ (s : State) (off : Nat) (a : Addr) (d : Byte), configValid s.cfg = true → mapped s .ramw off a →
    0x0E ≤ off → off < 0x10 →
    ∃ t, exec (.writeByte a d) s = .next t ∧
      (ramField t 0x0E 2 : Int) = max 0 (min
        (if off = 0x0E then (d.toNat + 256 * (s.byteAt .ramw 0x0F).toNat : Int)
          else ((s.byteAt .ramw 0x0E).toNat + 256 * d.toNat : Int))
        ((ramField s 0x08 2 : Int) - 1)) ∧
      (∀ q p, (q ≠ .ramw ∨ p < 0x04 ∨ 0x08 ≤ p ∧ p < 0x0E ∨ 0x10 ≤ p) → t.byteAt q p = s.byteAt q p) ∧
      t.blink = ⟨.visible, s.cfg.blinkRate⟩ ∧ sameButBytes { s with blink := t.blink } t

/-- R129: a byte write to CURSOR_ROW leaves the row clamped: `max(0, min(v, L − 1))` of the field after the byte store,
unsigned, with L as stored; no byte changes outside CURSOR_POS and CURSOR_ROW; the blink restarts (R131). -/
def Obligations.CursorRowWrite : Prop :=
  ∀ (s : State) (off : Nat) (a : Addr) (d : Byte), configValid s.cfg = true → mapped s .ramw off a →
    0x10 ≤ off → off < 0x12 →
    ∃ t, exec (.writeByte a d) s = .next t ∧
      (ramField t 0x10 2 : Int) = max 0 (min
        (if off = 0x10 then (d.toNat + 256 * (s.byteAt .ramw 0x11).toNat : Int)
          else ((s.byteAt .ramw 0x10).toNat + 256 * d.toNat : Int))
        ((ramField s 0x0A 2 : Int) - 1)) ∧
      (∀ q p, (q ≠ .ramw ∨ p < 0x04 ∨ 0x08 ≤ p ∧ p < 0x10 ∨ 0x12 ≤ p) → t.byteAt q p = s.byteAt q p) ∧
      t.blink = ⟨.visible, s.cfg.blinkRate⟩ ∧ sameButBytes { s with blink := t.blink } t

/-- R131: every CPU-side byte write to CURSOR_COL or CURSOR_ROW resets the blink state at once, whatever it stores; no
other byte write does; a word write to one of these fields has the same end effect. -/
def Obligations.CursorWritesRestartTheBlink : Prop :=
  ∀ (s : State) (r : Region) (off : Nat) (a : Addr), configValid s.cfg = true → mapped s r off a →
    (∀ d : Byte, ∃ t, exec (.writeByte a d) s = .next t ∧
      t.blink = if r = .ramw ∧ 0x0E ≤ off ∧ off < 0x12 then ⟨.visible, s.cfg.blinkRate⟩ else s.blink) ∧
    (r = .ramw → off = 0x0E ∨ off = 0x10 → ∀ d : Half, ∃ t, exec (.writeWord a d) s = .next t ∧
      t.blink = ⟨.visible, s.cfg.blinkRate⟩)

/-! ## Word and long writes -/

/-- R123, R125: WRITE_WORD and WRITE_LONG are their byte writes in ascending order, addresses mod 2^32, low byte first,
each with its own side effects. -/
def Obligations.WideWritesAreByteWrites : Prop :=
  (∀ (s : State) (a : Addr) (d : Half), exec (.writeWord a d) s =
      execAll [.writeByte a (BitVec.ofNat 8 d.toNat),
        .writeByte (BitVec.ofNat 32 (a.toNat + 1)) (BitVec.ofNat 8 (d.toNat / 2 ^ 8))] s) ∧
    ∀ (s : State) (a : Addr) (d : Long), exec (.writeLong a d) s =
      execAll [.writeByte a (BitVec.ofNat 8 d.toNat),
        .writeByte (BitVec.ofNat 32 (a.toNat + 1)) (BitVec.ofNat 8 (d.toNat / 2 ^ 8)),
        .writeByte (BitVec.ofNat 32 (a.toNat + 2)) (BitVec.ofNat 8 (d.toNat / 2 ^ 16)),
        .writeByte (BitVec.ofNat 32 (a.toNat + 3)) (BitVec.ofNat 8 (d.toNat / 2 ^ 24))] s

/-- R66, R123, R125: WRITE_WORD (n = 2) and WRITE_LONG (n = 4) complete; each of their n bytes that decodes to an
offset outside the clamped fields and CURSOR_POS is stored there; no byte outside the n addressed ones changes but
CURSOR_POS, CURSOR_COL and CURSOR_ROW, and not even those unless an addressed byte is in SCREEN_BASE, CURSOR_COL or
CURSOR_ROW. -/
def Obligations.WideWritesStoreTheirBytes : Prop :=
  ∀ (s : State) (a : Addr) (d : Long) (i : Instr) (n : Nat), configValid s.cfg = true →
    (n = 2 ∧ i = .writeWord a (BitVec.ofNat 16 d.toNat) ∨ n = 4 ∧ i = .writeLong a d) →
    ∃ t, exec i s = .next t ∧
      (∀ k q p, k < n → mapped s q p (BitVec.ofNat 32 (a.toNat + k)) →
        (q = .ramw → p < 0x04 ∨ 0x08 ≤ p ∧ p < 0x0E ∨ 0x12 ≤ p) →
        t.byteAt q p = BitVec.ofNat 8 (d.toNat / 256 ^ k)) ∧
      (∀ q p, (∀ k, k < n → ¬ mapped s q p (BitVec.ofNat 32 (a.toNat + k))) →
        (q = .ramw → p < 0x04 ∨ 0x08 ≤ p ∧ p < 0x0E ∨ 0x12 ≤ p) → t.byteAt q p = s.byteAt q p) ∧
      ((∀ k p, k < n → mapped s .ramw p (BitVec.ofNat 32 (a.toNat + k)) → 0x04 ≤ p ∧ p < 0x0E ∨ 0x12 ≤ p) →
        t.blink = s.blink ∧
        ∀ q p, (∀ k, k < n → ¬ mapped s q p (BitVec.ofNat 32 (a.toNat + k))) → t.byteAt q p = s.byteAt q p) ∧
      sameButBytes { s with blink := t.blink } t

/-- What the spec derives in R134 from R123, R128 and R129: a WRITE_WORD to CURSOR_COL or CURSOR_ROW reads back the
clamp applied byte by byte, which is `max(0, min(v, visible − 1))` when the field's old high byte is at most the new
one. -/
def Obligations.CursorWordRoundTrip : Prop :=
  ∀ (s : State) (f n : Nat) (a : Addr) (v : Half), configValid s.cfg = true →
    (f = 0x0E ∧ n = 0x08 ∨ f = 0x10 ∧ n = 0x0A) → mapped s .ramw f a →
    ∃ t w, exec (.writeWord a v) s = .next t ∧ exec (.readWord a) t = .next (t.emit (.word w)) ∧
      (w.toNat = clampTo (clampTo (v.toNat % 256 + 256 * (ramField s f 2 / 256)) (ramField s n 2) % 256 +
        256 * (v.toNat / 256)) (ramField s n 2)) ∧
      (ramField s f 2 / 256 ≤ v.toNat / 256 →
        (w.toNat : Int) = max 0 (min (v.toNat : Int) ((ramField s n 2 : Int) - 1)))

/-! ## TICK: the blink and the diagnostics -/

/-- R264, R262: a TICK completes and steps the blink state whatever the rest of the state is (decrement; on reaching
zero flip and reload); it presents one frame, and changes nothing else but the count of placeholder draws, which is the
model's (notes/assumptions/4.md). -/
def Obligations.TickPresentsAndStepsTheBlink : Prop :=
  ∀ s : State, 1 ≤ s.blink.countdown → ∃ t f diag, exec .tick s = .next t ∧ t.outputs = s.outputs ++ [.tick f diag] ∧
    t.regions = s.regions ∧ t.charsets = s.charsets ∧ t.cfg = s.cfg ∧ t.cpuQueue = s.cpuQueue ∧
    t.hostQueue = s.hostQueue ∧ t.schedule = s.schedule ∧
    (2 ≤ s.blink.countdown → t.blink = ⟨s.blink.phase, s.blink.countdown - 1⟩) ∧
    (s.blink.countdown = 1 → t.blink = ⟨if s.blink.phase = .visible then .hidden else .visible, s.cfg.blinkRate⟩)

/-- What the spec derives in R266 from R262 and R150: n TICKs from (Visible, BLINK_RATE) leave the phase Visible when
floor(n / BLINK_RATE) is even and Hidden when it is odd, the countdown BLINK_RATE − (n mod BLINK_RATE), and the k-th of
them presents the frame composed with the blink state after k − 1 steps. -/
def Obligations.BlinkPeriodOverTicks : Prop :=
  ∀ (s : State) (n : Nat), 1 ≤ s.cfg.blinkRate → s.blink = ⟨.visible, s.cfg.blinkRate⟩ →
    let after := fun k : Nat =>
      (⟨if k / s.cfg.blinkRate % 2 = 0 then .visible else .hidden, s.cfg.blinkRate - k % s.cfg.blinkRate⟩ : Blink)
    ∃ t, execAll (List.replicate n .tick) s = .next t ∧ t.blink = after n ∧
      ∀ k, k < n → ∃ draw, t.outputs[s.outputs.length + k]? =
        some (.tick (compose (snapshotOf s) (after k) draw).1 (compose (snapshotOf s) (after k) draw).2)

/-- R155, R171, R183, R281, R284, R285: the diagnostic set of a TICK: NO_STORAGE alone with a region unattached, else
for a text layer TEXT_CONFIG on an invalid grid, else NO_CHARSET with no set loaded; empty in every other case. -/
def Obligations.DiagnosticsOfTick : Prop :=
  ∀ s : State, ∃ f diag, presents s f diag ∧
    ((∃ r, attached s.regions r = false) → diag = [.noStorage]) ∧
    ((∀ r, attached s.regions r = true) →
      ((s.byteAt .io 0).getLsbD 0 = false → diag = []) ∧
      ((s.byteAt .io 0).getLsbD 0 = true →
        (¬ (1 ≤ ramField s 0x08 2 ∧ ramField s 0x08 2 ≤ 128 ∧ 1 ≤ ramField s 0x0A 2 ∧ ramField s 0x0A 2 ≤ 64) →
          diag = [.textConfig]) ∧
        (1 ≤ ramField s 0x08 2 ∧ ramField s 0x08 2 ≤ 128 ∧ 1 ≤ ramField s 0x0A 2 ∧ ramField s 0x0A 2 ≤ 64 →
          (s.charsets = [] → diag = [.noCharset]) ∧ (s.charsets ≠ [] → diag = []))))

/-- R281: an empty diagnostic set means the frame is fully specified: it does not depend on the free values of
placeholder draws. -/
def Obligations.CleanFrameIsDetermined : Prop :=
  ∀ (sn : Snapshot) (b : Blink) (k k' : Nat), (compose sn b k).2 = [] → compose sn b k = compose sn b k'

/-- R281 (a draw; the free value is the model's, notes/assumptions/4.md): a frame with a diagnostic is a free value at
every pixel, drawn afresh: the count that numbers the draws advances. -/
def Obligations.DiagnosticFrameIsADraw : Prop :=
  ∀ (s t : State) (f : Frame) (diag : List DiagReason), exec .tick s = .next t →
    t.outputs = s.outputs ++ [.tick f diag] → diag ≠ [] →
    t.draws = s.draws + 1 ∧ ∀ x y, x < 640 → y < 480 → f.pixel x y = Config.diagPixel s.draws x y

/-- R32: every frame a TICK presents is a 640 × 480 array. -/
def Obligations.PresentedFramesAre640By480 : Prop :=
  ∀ s : State, ∃ f diag, presents s f diag ∧ f.rows.length = 480 ∧ ∀ row ∈ f.rows, row.length = 640

/-! ## TICK: the layers -/

/-- R153, R154: with neither MODE bit 3 nor MODE bit 0 set every pixel is Transparent and there is no diagnostic. -/
def Obligations.NoLayerLeavesTransparent : Prop :=
  ∀ s : State, (∀ r, attached s.regions r = true) → (s.byteAt .io 0).getLsbD 3 = false →
    (s.byteAt .io 0).getLsbD 0 = false →
    ∃ f, presents s f [] ∧ ∀ x y, x < 640 → y < 480 → f.pixel x y = .transparent

/-- R203 (with R200 to R206, R224): with the bitmap layer alone, the pixel at (x, y) of an enabled W × H bitmap is the
LUT entry of the selected bank for the VRAM byte at start + y*W + x, unbounded, and every other pixel is Transparent; a
disabled bitmap leaves every pixel Transparent. -/
def Obligations.BitmapLayerPixels : Prop :=
  ∀ s : State, (∀ r, attached s.regions r = true) → (s.byteAt .io 0).getLsbD 3 = true →
    (s.byteAt .io 0).getLsbD 0 = false →
    ∃ f, presents s f [] ∧ ∀ x y, x < 640 → y < 480 →
      ((s.byteAt .io 0x100).getLsbD 0 = true →
        (x < regionRead s.cfg s.regions .io 0x105 2 ∧ y < regionRead s.cfg s.regions .io 0x107 2 →
          f.pixel x y = recordAt s (0x2000 + 1024 * ((s.byteAt .io 0x100).toNat / 2 % 8) +
            4 * (s.byteAt .vram (regionRead s.cfg s.regions .io 0x101 4 +
              y * regionRead s.cfg s.regions .io 0x105 2 + x)).toNat)) ∧
        (¬ (x < regionRead s.cfg s.regions .io 0x105 2 ∧ y < regionRead s.cfg s.regions .io 0x107 2) →
          f.pixel x y = .transparent)) ∧
      ((s.byteAt .io 0x100).getLsbD 0 = false → f.pixel x y = .transparent)

/-- R178 (with R172 to R177): the frame pixel of glyph pixel (dx, dy) of cell (r, c), where the cursor rectangle does
not cover it, is the recoloured glyph's: the foreground palette's colour, or BAKED_FG for foreground index 0; the
background palette's colour, or under overlay with background index 0 what lies beneath. -/
def Obligations.TextCellPixels : Prop :=
  ∀ (s : State) (cs : CharSet), drawsText s cs →
    ∃ f, presents s f [] ∧ ∀ r c dx dy x y : Nat, r < ramField s 0x0A 2 → c < ramField s 0x08 2 → dx < 8 → dy < 8 →
      x < 640 → y < 480 → (x : Int) = c * 8 + Int.tdiv (80 - (ramField s 0x08 2 : Int)) 2 * 8 + dx →
      (y : Int) = r * 8 + Int.tdiv (60 - (ramField s 0x0A 2 : Int)) 2 * 8 + dy →
      ¬ (cursorShown s ∧ inCursorRect s x y) →
      let ch := s.byteAt .io (0xA000 + r * ramField s 0x0C 2 + c)
      let col := (s.byteAt .io (0xE000 + r * ramField s 0x0C 2 + c)).toNat
      let bit := ((glyphOf cs ch).rows[dy]?.getD 0).getLsbD (7 - dx)
      let overlay := (s.byteAt .io 0).getLsbD 1
      f.pixel x y =
        if bit = true then
          if col / 16 = 0 then paint (beneath s x y) s.cfg.bakedFg else recordAt s (0x1F40 + 4 * (col / 16))
        else if overlay = true ∧ col % 16 = 0 then beneath s x y
        else recordAt s (0x1F80 + 4 * (col % 16))

/-- What the spec derives in R184 from R172: the text layer changes no pixel outside the box of the grid, but for the
cursor rectangle. -/
def Obligations.TextLayerOutsideTheGrid : Prop :=
  ∀ (s : State) (cs : CharSet), drawsText s cs →
    ∃ f, presents s f [] ∧ ∀ x y : Nat, x < 640 → y < 480 →
      ((x : Int) < xOffOf s ∨ xOffOf s + 8 * (ramField s 0x08 2 : Int) ≤ x ∨ (y : Int) < yOffOf s ∨
        yOffOf s + 8 * (ramField s 0x0A 2 : Int) ≤ y) →
      ¬ (cursorShown s ∧ inCursorRect s x y) → f.pixel x y = beneath s x y

/-- R181 (with R180, R182): an enabled, visible cursor fills the 8 × 8 rectangle of the cell that the stored column and
row name, in CURSOR_COLOR, over whatever was drawn, clipped to the frame. -/
def Obligations.CursorRectangleIsDrawn : Prop :=
  ∀ (s : State) (cs : CharSet), drawsText s cs → cursorShown s →
    ∃ f, presents s f [] ∧ ∀ x y : Nat, x < 640 → y < 480 → inCursorRect s x y →
      f.pixel x y = .solid s.cfg.cursorColor

/-- What the spec derives in R265 from R30 and R180: the blink state is read only by the gate of the cursor: with
CURSOR_EN clear, or without a text layer, the frame does not depend on it. -/
def Obligations.BlinkShowsOnlyThroughTheCursor : Prop :=
  ∀ (sn : Snapshot) (b b' : Blink) (k : Nat),
    ((sn.byte .io cursorCtrl).getLsbD 0 = false ∨ (sn.byte .io modeReg).getLsbD 0 = false ∨ b.phase = b'.phase) →
    compose sn b k = compose sn b' k

/-- The frame a TICK presents is the one the rules' own loops of FrameWrite make (R151, R152, R170, R178, R179, R180,
R200, R202): the per-pixel definitions agree with the loops at every pixel of the frame, and so do the diagnostics. -/
def Obligations.FramesAreTheRulesLoops : Prop :=
  ∀ (sn : Snapshot) (b : Blink) (k : Nat), (compose sn b k).2 = (composeLoop sn b k).2 ∧
    ∀ x y : Nat, x < 640 → y < 480 → (compose sn b k).1.pixel x y = (composeLoop sn b k).1 x y

/-- From R91: MODE bits 2 and 7:4 have no effect on any frame, and bit 1 has none when TEXT_EN = 0; all eight bits are
stored and read back. -/
def Obligations.ModeBitsWithoutEffect : Prop :=
  ∀ (s : State) (a : Addr) (v w : Byte), configValid s.cfg = true → mapped s .io 0 a →
    v.getLsbD 0 = w.getLsbD 0 → v.getLsbD 3 = w.getLsbD 3 → (v.getLsbD 0 = true → v.getLsbD 1 = w.getLsbD 1) →
    ∃ t u, exec (.writeByte a v) s = .next t ∧ exec (.writeByte a w) s = .next u ∧
      exec (.readByte a) t = .next (t.emit (.byte v)) ∧
      ∀ f diag, presents t f diag ↔ presents u f diag

/-- R93, R95: BM_CTRL bits 7:4 and CURSOR_CTRL bits 7:1 have no effect on any frame and are read back as written. -/
def Obligations.ControlBitsWithoutEffect : Prop :=
  ∀ (s : State) (off : Nat) (a : Addr) (v w : Byte), configValid s.cfg = true → mapped s .io off a →
    (off = 0x100 ∧ v.toNat % 16 = w.toNat % 16 ∨ off = 0x10 ∧ v.toNat % 2 = w.toNat % 2) →
    ∃ t u, exec (.writeByte a v) s = .next t ∧ exec (.writeByte a w) s = .next u ∧
      exec (.readByte a) t = .next (t.emit (.byte v)) ∧
      ∀ f diag, presents t f diag ↔ presents u f diag

/-- R26, R76, R133: a CPU-side write to a byte that no rendering rule reads (unnamed bytes, pads, font memory after a
load, CURSOR_POS, SCREEN_BASE) changes no frame. -/
def Obligations.UnreadBytesDoNotShow : Prop :=
  ∀ (s : State) (r : Region) (off : Nat) (a : Addr) (d : Byte), configValid s.cfg = true → mapped s r off a →
    unreadByte r off → ∃ t, exec (.writeByte a d) s = .next t ∧ ∀ f diag, presents s f diag ↔ presents t f diag

/-- What the spec derives in R226 from R221, as its example E6 reads it: two TICKs with no operation between them
present the same frame, if the first has no diagnostic and the blink phase does not change between them. -/
def Obligations.RepeatedTickPresentsTheSameFrame : Prop :=
  ∀ (s t : State) (f : Frame), exec .tick s = .next t → t.outputs = s.outputs ++ [.tick f []] →
    t.blink.phase = s.blink.phase → presents t f []

/-- R247: only slot 0 is drawn: no frame depends on a later slot, and no operation changes slot 0 once it is filled. -/
def Obligations.OnlySlotZeroIsDrawn : Prop :=
  (∀ (sn : Snapshot) (cs : CharSet) (l m : List CharSet) (b : Blink) (k : Nat),
      compose { sn with charsets := cs :: l } b k = compose { sn with charsets := cs :: m } b k) ∧
    ∀ (i : Instr) (s t : State) (cs : CharSet), s.charsets.head? = some cs → exec i s = .next t →
      t.charsets.head? = some cs

/-! ## Character-set loads and attaches -/

/-- R244, R245, and the append of R246: a successful load stores the 2048 stream bytes where they fall inside the
region, with no side effect, and appends the set whose glyph k has rows stream[soff + 8k .. soff + 8k + 7]; nothing
else changes. -/
def Obligations.SuccessfulLoad : Prop :=
  ∀ (s : State) (r : Region) (toff soff : BitVec 32) (id tag : Byte) (stream : List Byte),
    attached s.regions r = true → soff.toNat + 2048 ≤ stream.length →
    ∃ t cs, exec (.loadCharset r toff soff 8 8 id tag stream) s = .next t ∧
      t.outputs = s.outputs ++ [.load .ok] ∧ t.charsets = s.charsets ++ [cs] ∧ cs.id = id ∧ cs.tag = tag ∧
      cs.glyphs.length = 256 ∧
      (∀ k y, k < 256 → y < 8 → (cs.glyphs[k]?).bind (fun g => g.rows[y]?) = stream[soff.toNat + 8 * k + y]?) ∧
      (∀ i, i < 2048 → toff.toNat + i < regionLen s.cfg r →
        some (t.byteAt r (toff.toNat + i)) = stream[soff.toNat + i]?) ∧
      (∀ q p, (q ≠ r ∨ p < toff.toNat ∨ toff.toNat + 2048 ≤ p) → t.byteAt q p = s.byteAt q p) ∧
      sameButBytes { s with charsets := t.charsets, outputs := t.outputs } t

/-- R243 (with R241, R242, R284): a failed load changes nothing; its result is the first failing check in the order
BAD_GLYPH_SIZE, NO_TARGET, TRUNCATED. -/
def Obligations.FailedLoadChangesNothing : Prop :=
  ∀ (s : State) (r : Region) (toff soff : BitVec 32) (gw gh id tag : Byte) (stream : List Byte),
    (¬ (gw.toNat = 8 ∧ gh.toNat = 8) → exec (.loadCharset r toff soff gw gh id tag stream) s =
      .next (s.emit (.load .badGlyphSize))) ∧
    (gw.toNat = 8 ∧ gh.toNat = 8 → attached s.regions r = false →
      exec (.loadCharset r toff soff gw gh id tag stream) s = .next (s.emit (.load .noTarget))) ∧
    (gw.toNat = 8 ∧ gh.toNat = 8 → attached s.regions r = true → stream.length < soff.toNat + 2048 →
      exec (.loadCharset r toff soff gw gh id tag stream) s = .next (s.emit (.load .truncated)))

/-- R248: ATTACH_REGION gives an unattached region the bytes of its initial image and changes nothing else; on an
attached region it returns ALREADY_ATTACHED and changes nothing. -/
def Obligations.AttachRegionGivesTheImage : Prop :=
  ∀ (s : State) (r : Region),
    (attached s.regions r = false → ∃ t, exec (.attachRegion r) s = .next t ∧
      t.outputs = s.outputs ++ [.attach .ok] ∧ attached t.regions r = true ∧
      (∀ off, off < regionLen s.cfg r → t.byteAt r off = Memory.read (initImage s.cfg r) off) ∧
      (∀ q, q ≠ r → Regions.get t.regions q = Regions.get s.regions q) ∧
      { t with regions := s.regions, outputs := s.outputs } = s) ∧
    (attached s.regions r = true → exec (.attachRegion r) s = .next (s.emit (.attach .alreadyAttached)))

/-- R249: no operation detaches a region, and none is detached along a run. -/
def Obligations.NoOperationDetaches : Prop :=
  (∀ (i : Instr) (s t : State) (r : Region), exec i s = .next t → attached s.regions r = true →
      attached t.regions r = true) ∧
    ∀ (s t : State) (r : Region) (n : Nat), Host.Core.run Sys2Proof.core n s = .next t → attached s.regions r = true →
      attached t.regions r = true

/-! ## Derived facts -/

/-- Two memories in canonical form that read alike at every offset are equal (the model's representation of a region's
bytes, notes/assumptions/11.md; R20). -/
def Obligations.CanonicalMemoryIsUnique : Prop :=
  ∀ m n : Memory, Memory.wf m = true → Memory.wf n = true → (∀ o, Memory.read m o = Memory.read n o) → m = n

/-- R117: the sequences of fgpal, bgpal and lut complete and set the colour record of their palette entry to Opaque(r,
g, b). -/
def Obligations.PaletteSequencesSetTheirEntry : Prop :=
  ∀ (s : State) (r g b : Byte), configValid s.cfg = true → attached s.regions .io = true →
    (∀ i : Fin 16, ∃ t, execAll (expand s.cfg (.fgPal i r g b)) s = .next t ∧
      recordAt t (0x1F40 + 4 * i.val) = .solid ⟨r, g, b⟩) ∧
    (∀ i : Fin 16, ∃ t, execAll (expand s.cfg (.bgPal i r g b)) s = .next t ∧
      recordAt t (0x1F80 + 4 * i.val) = .solid ⟨r, g, b⟩) ∧
    (∀ (k : Fin 8) (j : Fin 256), ∃ t, execAll (expand s.cfg (.lut k j r g b)) s = .next t ∧
      recordAt t (0x2000 + 1024 * k.val + 4 * j.val) = .solid ⟨r, g, b⟩)
end

