-- ==== Sys2Proof/Laws/Memory.lean ====
section
/-! SUPPORT. What the operations on one region's bytes do, and that they keep the canonical form. -/

namespace Sys2Proof.Machine

@[simp] theorem Memory.read_nil (o : Nat) : Memory.read [] o = Memory.unlisted := rfl

theorem Memory.read_cons (a : Nat) (v : Byte) (m : Memory) (o : Nat) :
    Memory.read ((a, v) :: m) o = if a = o then v else Memory.read m o := rfl

theorem Memory.erase_cons (a : Nat) (v : Byte) (m : Memory) (o : Nat) :
    Memory.erase ((a, v) :: m) o = if a = o then Memory.erase m o else (a, v) :: Memory.erase m o := by
  unfold Memory.erase
  by_cases h : a = o <;> simp [h]

theorem Memory.read_erase (m : Memory) (o p : Nat) :
    Memory.read (Memory.erase m o) p = if p = o then Memory.unlisted else Memory.read m p := by
  induction m with
  | nil => simp [Memory.erase]
  | cons c m ih =>
    obtain ⟨a, v⟩ := c
    rw [Memory.erase_cons]
    by_cases h : a = o
    · subst h
      rw [if_pos rfl, ih, Memory.read_cons]
      by_cases hp : p = a
      · simp [hp]
      · rw [if_neg hp, if_neg hp, if_neg (Ne.symm hp)]
    · rw [if_neg h, Memory.read_cons, ih, Memory.read_cons]
      by_cases hp : a = p
      · subst hp
        simp [h]
      · simp [hp]

theorem Memory.read_insert (m : Memory) (o p : Nat) (v : Byte)
    (hm : ∀ c ∈ m, c.1 ≠ o) :
    Memory.read (Memory.insert m o v) p = if p = o then v else Memory.read m p := by
  induction m with
  | nil =>
    simp only [Memory.insert, Memory.read_cons, Memory.read_nil]
    by_cases hp : p = o
    · simp [hp]
    · rw [if_neg (Ne.symm hp), if_neg hp]
  | cons c m ih =>
    obtain ⟨a, w⟩ := c
    have ha : a ≠ o := hm (a, w) (by simp)
    unfold Memory.insert
    split
    · rw [Memory.read_cons]
      by_cases hp : p = o
      · simp [hp]
      · rw [if_neg (Ne.symm hp), if_neg hp]
    · rw [Memory.read_cons, ih (fun c hc => hm c (List.mem_cons_of_mem _ hc)), Memory.read_cons]
      by_cases hp : a = p
      · subst hp
        simp [ha]
      · simp [hp]

theorem Memory.mem_erase (m : Memory) (o : Nat) : ∀ c ∈ Memory.erase m o, c.1 ≠ o := by
  intro c hc
  simpa using (List.mem_filter.mp hc).2

/-- Everything a write does to reads: the written offset reads the byte, every other offset reads as before. -/
theorem Memory.read_write (m : Memory) (o p : Nat) (v : Byte) :
    Memory.read (Memory.write m o v) p = if p = o then v else Memory.read m p := by
  unfold Memory.write
  split
  · next h => rw [Memory.read_erase, h]
  · rw [Memory.read_insert _ _ _ _ (Memory.mem_erase m o), Memory.read_erase]
    by_cases hp : p = o <;> simp [hp]

theorem Memory.wf_cons (a : Nat) (v : Byte) (m : Memory) :
    Memory.wf ((a, v) :: m) = true ↔ v ≠ Memory.unlisted ∧ (∀ c ∈ m, a < c.1) ∧ Memory.wf m = true := by
  simp [Memory.wf, and_assoc]

theorem Memory.wf_erase (m : Memory) (o : Nat) (h : Memory.wf m = true) : Memory.wf (Memory.erase m o) = true := by
  induction m with
  | nil => rfl
  | cons c m ih =>
    obtain ⟨a, v⟩ := c
    rw [Memory.wf_cons] at h
    rw [Memory.erase_cons]
    split
    · exact ih h.2.2
    · rw [Memory.wf_cons]
      exact ⟨h.1, fun c hc => h.2.1 c (List.mem_filter.mp hc).1, ih h.2.2⟩

theorem Memory.mem_insert (m : Memory) (o : Nat) (v : Byte) (c : Host.Cell) (h : c ∈ Memory.insert m o v) :
    c = (o, v) ∨ c ∈ m := by
  induction m with
  | nil => simpa [Memory.insert] using h
  | cons d m ih =>
    obtain ⟨a, w⟩ := d
    unfold Memory.insert at h
    split at h
    · simpa using h
    · rcases List.mem_cons.mp h with h | h
      · exact .inr (by simp [h])
      · rcases ih h with h | h
        · exact .inl h
        · exact .inr (List.mem_cons_of_mem _ h)

theorem Memory.wf_insert (m : Memory) (o : Nat) (v : Byte) (hv : v ≠ Memory.unlisted) (hm : ∀ c ∈ m, c.1 ≠ o)
    (h : Memory.wf m = true) : Memory.wf (Memory.insert m o v) = true := by
  induction m with
  | nil => simp [Memory.insert, Memory.wf, hv]
  | cons d m ih =>
    obtain ⟨a, w⟩ := d
    have hd := h
    rw [Memory.wf_cons] at h
    unfold Memory.insert
    split
    · next hlt =>
      rw [Memory.wf_cons]
      refine ⟨hv, fun c hc => ?_, hd⟩
      rcases List.mem_cons.mp hc with hc | hc
      · simpa [hc] using hlt
      · exact lt_trans hlt (h.2.1 c hc)
    · next hlt =>
      have ha : a ≠ o := hm (a, w) (by simp)
      rw [Memory.wf_cons]
      refine ⟨h.1, fun c hc => ?_, ih (fun c hc => hm c (List.mem_cons_of_mem _ hc)) h.2.2⟩
      rcases Memory.mem_insert _ _ _ _ hc with hc | hc
      · simp only [hc]
        omega
      · exact h.2.1 c hc

/-- A write keeps the canonical form. -/
theorem Memory.wf_write (m : Memory) (o : Nat) (v : Byte) (h : Memory.wf m = true) :
    Memory.wf (Memory.write m o v) = true := by
  unfold Memory.write
  split
  · exact Memory.wf_erase m o h
  · next hv => exact Memory.wf_insert _ _ _ hv (Memory.mem_erase m o) (Memory.wf_erase m o h)

/-- A write inside a region's length keeps its entries inside it. -/
theorem Memory.fits_write (m : Memory) (o : Nat) (v : Byte) (len : Nat) (ho : o < len)
    (h : Memory.fits m len = true) : Memory.fits (Memory.write m o v) len = true := by
  unfold Memory.fits at *
  simp only [List.all_eq_true, decide_eq_true_eq] at *
  intro c hc
  have he : ∀ c ∈ Memory.erase m o, c.1 < len := fun c hc => h c (List.mem_filter.mp hc).1
  unfold Memory.write at hc
  split at hc
  · exact he c hc
  · rcases Memory.mem_insert _ _ _ _ hc with hc | hc
    · simpa [hc] using ho
    · exact he c hc

end Sys2Proof.Machine
end

