-- ==== Sys2Proof/Laws/Regions.lean ====
section
/-! SUPPORT. What the region operations of 00_scope.md R13 do, said once each by what every byte reads afterwards. -/

namespace Sys2Proof.Machine

theorem Regions.get_set (g : Regions) (r q : Region) (m : Memory) :
    Regions.get (Regions.set g r m) q = if q = r then some m else Regions.get g q := by
  cases r <;> cases q <;> rfl

theorem attached_set (g : Regions) (r q : Region) (m : Memory) :
    attached (Regions.set g r m) q = if q = r then true else attached g q := by
  unfold attached
  rw [Regions.get_set]
  split <;> rfl

/-- Everything a one-byte region write does: the byte at its offset if the region is attached and the offset inside it,
no other byte. -/
theorem regionByte_writeByte (cfg : Config) (g : Regions) (r q : Region) (off p : Nat) (v : Byte) :
    regionByte cfg (regionWriteByte cfg r off v g) q p =
      if q = r ∧ p = off ∧ off < regionLen cfg r ∧ attached g r = true then v else regionByte cfg g q p := by
  unfold regionWriteByte attached
  by_cases hl : off < regionLen cfg r
  · rw [if_pos hl]
    cases hg : Regions.get g r with
    | none => simp
    | some m =>
      simp only [Option.isSome_some, and_true, hl]
      unfold regionByte
      rw [Regions.get_set]
      by_cases hq : q = r
      · subst hq
        by_cases hp : p = off
        · subst hp
          simp [hl, Memory.read_write]
        · simp [hp, hg, Memory.read_write]
      · simp [hq]
  · simp [hl]

theorem attached_writeByte (cfg : Config) (g : Regions) (r q : Region) (off : Nat) (v : Byte) :
    attached (regionWriteByte cfg r off v g) q = attached g q := by
  unfold regionWriteByte
  split
  · cases hg : Regions.get g r with
    | none => rfl
    | some m =>
      simp only [attached_set]
      split
      · next h =>
        subst h
        simp [attached, hg]
      · rfl
  · rfl

theorem attached_write (cfg : Config) (r q : Region) (n off v : Nat) (g : Regions) :
    attached (regionWrite cfg r off n v g) q = attached g q := by
  induction n generalizing off v g with
  | zero => rfl
  | succ n ih => rw [regionWrite, ih, attached_writeByte]

theorem attached_writeBytes (cfg : Config) (r q : Region) (bs : List Byte) (off : Nat) (g : Regions) :
    attached (regionWriteBytes cfg r off bs g) q = attached g q := by
  induction bs generalizing off g with
  | nil => rfl
  | cons b bs ih => rw [regionWriteBytes, ih, attached_writeByte]

/-- Everything `RegionWrite` does: byte `i` of the value at `off + i`, where that offset is inside an attached region. -/
theorem regionByte_write (cfg : Config) (r q : Region) (n off p v : Nat) (g : Regions) :
    regionByte cfg (regionWrite cfg r off n v g) q p =
      if q = r ∧ off ≤ p ∧ p < off + n ∧ p < regionLen cfg r ∧ attached g r = true
      then BitVec.ofNat 8 (v / 256 ^ (p - off)) else regionByte cfg g q p := by
  induction n generalizing off v g with
  | zero =>
    rw [regionWrite, if_neg]
    omega
  | succ n ih =>
    rw [regionWrite, ih, regionByte_writeByte, attached_writeByte]
    by_cases hq : q = r ∧ attached g r = true
    · obtain ⟨rfl, ha⟩ := hq
      simp only [ha, and_true, true_and]
      by_cases h1 : off + 1 ≤ p ∧ p < off + 1 + n ∧ p < regionLen cfg q
      · have h2 : off ≤ p ∧ p < off + (n + 1) ∧ p < regionLen cfg q := by omega
        rw [if_pos h1, if_pos h2]
        have : p - off = (p - (off + 1)) + 1 := by omega
        rw [this, Nat.pow_succ', Nat.div_div_eq_div_mul]
      · rw [if_neg h1]
        by_cases h3 : p = off ∧ off < regionLen cfg q
        · obtain ⟨rfl, hl⟩ := h3
          have h2 : p ≤ p ∧ p < p + (n + 1) ∧ p < regionLen cfg q := by omega
          rw [if_pos ⟨rfl, hl⟩, if_pos h2]
          simp
        · have h2 : ¬(off ≤ p ∧ p < off + (n + 1) ∧ p < regionLen cfg q) := by omega
          rw [if_neg h3, if_neg h2]
    · rw [if_neg (by tauto), if_neg (by tauto), if_neg (by tauto)]

/-- Everything a run of bytes written in ascending order does. -/
theorem regionByte_writeBytes (cfg : Config) (r q : Region) (bs : List Byte) (off p : Nat) (g : Regions) :
    regionByte cfg (regionWriteBytes cfg r off bs g) q p =
      if q = r ∧ off ≤ p ∧ p < off + bs.length ∧ p < regionLen cfg r ∧ attached g r = true
      then bs.getD (p - off) 0 else regionByte cfg g q p := by
  induction bs generalizing off g with
  | nil =>
    rw [regionWriteBytes, if_neg]
    simp only [List.length_nil]
    omega
  | cons b bs ih =>
    rw [regionWriteBytes, ih, regionByte_writeByte, attached_writeByte]
    by_cases hq : q = r ∧ attached g r = true
    · obtain ⟨rfl, ha⟩ := hq
      simp only [ha, and_true, true_and, List.length_cons]
      by_cases h1 : off + 1 ≤ p ∧ p < off + 1 + bs.length ∧ p < regionLen cfg q
      · have h2 : off ≤ p ∧ p < off + (bs.length + 1) ∧ p < regionLen cfg q := by omega
        rw [if_pos h1, if_pos h2]
        have : p - off = (p - (off + 1)) + 1 := by omega
        rw [this, List.getD_cons_succ]
      · rw [if_neg h1]
        by_cases h3 : p = off ∧ off < regionLen cfg q
        · obtain ⟨rfl, hl⟩ := h3
          have h2 : p ≤ p ∧ p < p + (bs.length + 1) ∧ p < regionLen cfg q := by omega
          rw [if_pos ⟨rfl, hl⟩, if_pos h2]
          simp
        · have h2 : ¬(off ≤ p ∧ p < off + (bs.length + 1) ∧ p < regionLen cfg q) := by omega
          rw [if_neg h3, if_neg h2]
    · rw [if_neg (by tauto), if_neg (by tauto), if_neg (by tauto)]

/-- `RegionRead` depends only on the bytes it reads. -/
theorem regionRead_congr (cfg : Config) (g h : Regions) (r : Region) (off n : Nat)
    (hb : ∀ p, off ≤ p → p < off + n → regionByte cfg g r p = regionByte cfg h r p) :
    regionRead cfg g r off n = regionRead cfg h r off n := by
  induction n generalizing off with
  | zero => rfl
  | succ n ih =>
    rw [regionRead, regionRead, hb off (Nat.le_refl _) (by omega), ih]
    intro p h1 h2
    exact hb p (by omega) (by omega)

theorem regionRead_lt (cfg : Config) (g : Regions) (r : Region) (off n : Nat) :
    regionRead cfg g r off n < 256 ^ n := by
  induction n generalizing off with
  | zero => simp [regionRead]
  | succ n ih =>
    rw [regionRead, Nat.pow_succ']
    have h1 := ih (off + 1)
    have h2 := (regionByte cfg g r off).isLt
    omega

/-- A field just written reads back its value, reduced to the field's width. -/
theorem regionRead_write (cfg : Config) (r : Region) (n off v : Nat) (g : Regions)
    (hl : off + n ≤ regionLen cfg r) (ha : attached g r = true) :
    regionRead cfg (regionWrite cfg r off n v g) r off n = v % 256 ^ n := by
  have key : ∀ k o w, off ≤ o → o + k = off + n → w = v / 256 ^ (o - off) →
      regionRead cfg (regionWrite cfg r off n v g) r o k = w % 256 ^ k := by
    intro k
    induction k with
    | zero =>
      intro o w _ _ _
      simp [regionRead, Nat.mod_one]
    | succ k ih =>
      intro o w h1 h2 hw
      rw [regionRead, ih (o + 1) (w / 256) (by omega) (by omega), regionByte_write,
        if_pos ⟨rfl, h1, by omega, by omega, ha⟩]
      · have hm : w % 256 ^ (k + 1) = w % 256 + 256 * (w / 256 % 256 ^ k) := by
          rw [Nat.pow_succ', Nat.mod_mul]
        rw [← hw, BitVec.toNat_ofNat, hm]
      · have : o + 1 - off = (o - off) + 1 := by omega
        rw [hw, this, Nat.pow_succ, Nat.div_div_eq_div_mul]
  simpa using key n off v (Nat.le_refl _) rfl (by simp)

theorem regionOk_set (cfg : Config) (g : Regions) (r q : Region) (m : Memory) (hw : Memory.wf m = true)
    (hf : Memory.fits m (regionLen cfg r) = true) (h : regionOk cfg g q = true) :
    regionOk cfg (Regions.set g r m) q = true := by
  unfold regionOk
  rw [Regions.get_set]
  by_cases hq : q = r
  · subst hq
    simp [hw, hf]
  · simpa [hq, regionOk] using h

/-- A one-byte region write keeps every region's bytes in form. -/
theorem regionOk_writeByte (cfg : Config) (g : Regions) (r q : Region) (off : Nat) (v : Byte)
    (hr : regionOk cfg g r = true) (hq : regionOk cfg g q = true) :
    regionOk cfg (regionWriteByte cfg r off v g) q = true := by
  unfold regionWriteByte
  split
  · next hl =>
    cases hg : Regions.get g r with
    | none => exact hq
    | some m =>
      have hm : Memory.wf m = true ∧ Memory.fits m (regionLen cfg r) = true := by
        simpa [regionOk, hg] using hr
      exact regionOk_set cfg g r q _ (Memory.wf_write m off v hm.1) (Memory.fits_write m off v _ hl hm.2) hq
  · exact hq

theorem regionOk_write (cfg : Config) (r q : Region) (n off v : Nat) (g : Regions)
    (hr : regionOk cfg g r = true) (hq : regionOk cfg g q = true) :
    regionOk cfg (regionWrite cfg r off n v g) q = true := by
  induction n generalizing off v g with
  | zero => exact hq
  | succ n ih =>
    exact ih _ _ _ (regionOk_writeByte cfg g r r off _ hr hr) (regionOk_writeByte cfg g r q off _ hr hq)

theorem regionOk_writeBytes (cfg : Config) (r q : Region) (bs : List Byte) (off : Nat) (g : Regions)
    (hr : regionOk cfg g r = true) (hq : regionOk cfg g q = true) :
    regionOk cfg (regionWriteBytes cfg r off bs g) q = true := by
  induction bs generalizing off g with
  | nil => exact hq
  | cons b bs ih =>
    exact ih _ _ (regionOk_writeByte cfg g r r off _ hr hr) (regionOk_writeByte cfg g r q off _ hr hq)

end Sys2Proof.Machine
end

