-- ==== Sys2Proof/Laws/Bus.lean ====
section
/-! SUPPORT. What bus decoding answers (20_memory.md R61). -/

namespace Sys2Proof.Machine

theorem answers_iff (cfg : Config) (g : Regions) (r : Region) (a : Addr) :
    answers cfg g r a = true ↔
      attached g r = true ∧ regionBase cfg r ≤ a.toNat ∧ a.toNat < regionBase cfg r + regionLen cfg r := by
  simp [answers, and_assoc]

/-- A decoded address lies in the window of an attached region, at the offset answered. -/
theorem busDecode_some (cfg : Config) (g : Regions) (a : Addr) (r : Region) (off : Nat)
    (h : busDecode cfg g a = some (r, off)) :
    attached g r = true ∧ a.toNat = regionBase cfg r + off ∧ off < regionLen cfg r := by
  unfold busDecode at h
  split at h
  · next ha =>
    rw [answers_iff] at ha
    cases h
    exact ⟨ha.1, by omega, by omega⟩
  · split at h
    · next ha =>
      rw [answers_iff] at ha
      cases h
      exact ⟨ha.1, by omega, by omega⟩
    · split at h
      · next ha =>
        rw [answers_iff] at ha
        cases h
        exact ⟨ha.1, by omega, by omega⟩
      · cases h

/-- An unmapped address is one that no region answers. -/
theorem busDecode_none (cfg : Config) (g : Regions) (a : Addr) :
    busDecode cfg g a = none ↔ ∀ r, answers cfg g r a = false := by
  unfold busDecode
  constructor
  · intro h r
    split at h
    · cases h
    · split at h
      · cases h
      · split at h
        · cases h
        · cases r <;> simp_all
  · intro h
    simp [h]

/-- Decoding depends on the regions only through which of them are attached. -/
theorem busDecode_congr (cfg : Config) (g h : Regions) (a : Addr) (hg : ∀ r, attached h r = attached g r) :
    busDecode cfg h a = busDecode cfg g a := by
  unfold busDecode answers
  rw [hg, hg, hg]

theorem windowsApart_iff (v w : Window) :
    windowsApart v w = true ↔ v.base + v.len ≤ w.base ∨ w.base + w.len ≤ v.base := by
  simp [windowsApart]

/-- The constraints of R10, each as a proposition. -/
theorem configValid_iff (cfg : Config) :
    configValid cfg = true ↔
      1 ≤ cfg.blinkRate ∧ (∀ r, regionParamsValid cfg r = true) ∧
        windowsApart cfg.layout.vram cfg.layout.ramw = true ∧ windowsApart cfg.layout.vram cfg.layout.io = true ∧
        windowsApart cfg.layout.ramw cfg.layout.io = true ∧ 0x12 ≤ regionLen cfg .ramw ∧
        0x10000 ≤ regionLen cfg .io := by
  simp only [configValid, Bool.and_eq_true, decide_eq_true_eq]
  constructor
  · rintro ⟨⟨⟨⟨h1, ⟨h2, h3⟩, h4⟩, ⟨h5, h6⟩, h7⟩, h8⟩, h9⟩
    refine ⟨h1, fun r => ?_, h5, h6, h7, h8, h9⟩
    cases r <;> assumption
  · rintro ⟨h1, h2, h5, h6, h7, h8, h9⟩
    exact ⟨⟨⟨⟨h1, ⟨h2 _, h2 _⟩, h2 _⟩, ⟨h5, h6⟩, h7⟩, h8⟩, h9⟩

theorem regionParamsValid_iff (cfg : Config) (r : Region) :
    regionParamsValid cfg r = true ↔
      1 ≤ regionLen cfg r ∧ regionBase cfg r + regionLen cfg r ≤ 2 ^ 32 ∧ Memory.wf (initImage cfg r) = true ∧
        Memory.fits (initImage cfg r) (regionLen cfg r) = true := by
  simp [regionParamsValid, and_assoc]

/-- Under R10 at most one region answers an address. -/
theorem answers_unique (cfg : Config) (g : Regions) (r q : Region) (a : Addr) (hv : configValid cfg = true)
    (hr : answers cfg g r a = true) (hq : answers cfg g q a = true) : r = q := by
  rw [configValid_iff] at hv
  obtain ⟨-, -, h1, h2, h3, -, -⟩ := hv
  rw [windowsApart_iff] at h1 h2 h3
  rw [answers_iff] at hr hq
  cases r <;> cases q <;> first | rfl | (simp only [regionBase, regionLen, Layout.window] at hr hq; omega)

/-- Under R10 an address in an attached region's window decodes to it. -/
theorem busDecode_of_mem (cfg : Config) (g : Regions) (r : Region) (off : Nat) (a : Addr)
    (hv : configValid cfg = true) (ha : attached g r = true) (hb : a.toNat = regionBase cfg r + off)
    (hl : off < regionLen cfg r) : busDecode cfg g a = some (r, off) := by
  have hr : answers cfg g r a = true := (answers_iff cfg g r a).mpr ⟨ha, by omega, by omega⟩
  cases hd : busDecode cfg g a with
  | none =>
    rw [(busDecode_none cfg g a).mp hd r] at hr
    cases hr
  | some p =>
    obtain ⟨q, o⟩ := p
    obtain ⟨h1, h2, h3⟩ := busDecode_some cfg g a q o hd
    have hq : answers cfg g q a = true := (answers_iff cfg g q a).mpr ⟨h1, by omega, by omega⟩
    have := answers_unique cfg g r q a hv hr hq
    subst this
    have : o = off := by omega
    rw [this]

/-- Under R10 a mapped address decodes to its region and offset. -/
theorem busDecode_mapped (s : State) (r : Region) (off : Nat) (a : Addr) (hv : configValid s.cfg = true)
    (hm : mapped s r off a) : busDecode s.cfg s.regions a = some (r, off) :=
  busDecode_of_mem _ _ _ _ _ hv hm.1 hm.2.2 hm.2.1

/-- What an address decodes to, it is mapped to. -/
theorem mapped_of_busDecode (s : State) (r : Region) (off : Nat) (a : Addr)
    (h : busDecode s.cfg s.regions a = some (r, off)) : mapped s r off a := by
  obtain ⟨h1, h2, h3⟩ := busDecode_some _ _ _ _ _ h
  exact ⟨h1, h3, h2⟩

/-- An unmapped address does not decode. -/
theorem busDecode_unmapped (s : State) (a : Addr) (h : unmapped s a) : busDecode s.cfg s.regions a = none := by
  cases hd : busDecode s.cfg s.regions a with
  | none => rfl
  | some p => exact absurd (mapped_of_busDecode s p.1 p.2 a hd) (h _ _)

/-- The address `k` bytes on is mapped to the offset `k` bytes on, inside the region. -/
theorem mapped_add (s : State) (hv : configValid s.cfg = true) (r : Region) (off k : Nat) (a : Addr)
    (hm : mapped s r off a) (hl : off + k < regionLen s.cfg r) : mapped s r (off + k) (a + BitVec.ofNat 32 k) := by
  refine ⟨hm.1, hl, ?_⟩
  have h1 := hm.2.2
  have h2 := ((regionParamsValid_iff _ _).mp (((configValid_iff _).mp hv).2.1 r)).2.1
  rw [BitVec.toNat_add, BitVec.toNat_ofNat]
  omega

end Sys2Proof.Machine
end

