-- ==== Sys2Proof/Laws/State.lean ====
section
/-! SUPPORT. One lemma for each field under each update of the state, all by rfl, so that no proof unfolds an update. -/

namespace Sys2Proof.Machine

variable (s : State)

@[simp] theorem State.withRegions_cfg (g : Regions) : (s.withRegions g).cfg = s.cfg := rfl
@[simp] theorem State.withRegions_regions (g : Regions) : (s.withRegions g).regions = g := rfl
@[simp] theorem State.withRegions_charsets (g : Regions) : (s.withRegions g).charsets = s.charsets := rfl
@[simp] theorem State.withRegions_blink (g : Regions) : (s.withRegions g).blink = s.blink := rfl
@[simp] theorem State.withRegions_cpuQueue (g : Regions) : (s.withRegions g).cpuQueue = s.cpuQueue := rfl
@[simp] theorem State.withRegions_hostQueue (g : Regions) : (s.withRegions g).hostQueue = s.hostQueue := rfl
@[simp] theorem State.withRegions_schedule (g : Regions) : (s.withRegions g).schedule = s.schedule := rfl
@[simp] theorem State.withRegions_draws (g : Regions) : (s.withRegions g).draws = s.draws := rfl
@[simp] theorem State.withRegions_outputs (g : Regions) : (s.withRegions g).outputs = s.outputs := rfl

@[simp] theorem State.withCharsets_cfg (c : List CharSet) : (s.withCharsets c).cfg = s.cfg := rfl
@[simp] theorem State.withCharsets_regions (c : List CharSet) : (s.withCharsets c).regions = s.regions := rfl
@[simp] theorem State.withCharsets_charsets (c : List CharSet) : (s.withCharsets c).charsets = c := rfl
@[simp] theorem State.withCharsets_blink (c : List CharSet) : (s.withCharsets c).blink = s.blink := rfl
@[simp] theorem State.withCharsets_cpuQueue (c : List CharSet) : (s.withCharsets c).cpuQueue = s.cpuQueue := rfl
@[simp] theorem State.withCharsets_hostQueue (c : List CharSet) : (s.withCharsets c).hostQueue = s.hostQueue := rfl
@[simp] theorem State.withCharsets_schedule (c : List CharSet) : (s.withCharsets c).schedule = s.schedule := rfl
@[simp] theorem State.withCharsets_draws (c : List CharSet) : (s.withCharsets c).draws = s.draws := rfl
@[simp] theorem State.withCharsets_outputs (c : List CharSet) : (s.withCharsets c).outputs = s.outputs := rfl

@[simp] theorem State.withBlink_cfg (b : Blink) : (s.withBlink b).cfg = s.cfg := rfl
@[simp] theorem State.withBlink_regions (b : Blink) : (s.withBlink b).regions = s.regions := rfl
@[simp] theorem State.withBlink_charsets (b : Blink) : (s.withBlink b).charsets = s.charsets := rfl
@[simp] theorem State.withBlink_blink (b : Blink) : (s.withBlink b).blink = b := rfl
@[simp] theorem State.withBlink_cpuQueue (b : Blink) : (s.withBlink b).cpuQueue = s.cpuQueue := rfl
@[simp] theorem State.withBlink_hostQueue (b : Blink) : (s.withBlink b).hostQueue = s.hostQueue := rfl
@[simp] theorem State.withBlink_schedule (b : Blink) : (s.withBlink b).schedule = s.schedule := rfl
@[simp] theorem State.withBlink_draws (b : Blink) : (s.withBlink b).draws = s.draws := rfl
@[simp] theorem State.withBlink_outputs (b : Blink) : (s.withBlink b).outputs = s.outputs := rfl

@[simp] theorem State.withDraws_cfg (n : Nat) : (s.withDraws n).cfg = s.cfg := rfl
@[simp] theorem State.withDraws_regions (n : Nat) : (s.withDraws n).regions = s.regions := rfl
@[simp] theorem State.withDraws_charsets (n : Nat) : (s.withDraws n).charsets = s.charsets := rfl
@[simp] theorem State.withDraws_blink (n : Nat) : (s.withDraws n).blink = s.blink := rfl
@[simp] theorem State.withDraws_cpuQueue (n : Nat) : (s.withDraws n).cpuQueue = s.cpuQueue := rfl
@[simp] theorem State.withDraws_hostQueue (n : Nat) : (s.withDraws n).hostQueue = s.hostQueue := rfl
@[simp] theorem State.withDraws_schedule (n : Nat) : (s.withDraws n).schedule = s.schedule := rfl
@[simp] theorem State.withDraws_draws (n : Nat) : (s.withDraws n).draws = n := rfl
@[simp] theorem State.withDraws_outputs (n : Nat) : (s.withDraws n).outputs = s.outputs := rfl

@[simp] theorem State.emit_cfg (o : Output) : (s.emit o).cfg = s.cfg := rfl
@[simp] theorem State.emit_regions (o : Output) : (s.emit o).regions = s.regions := rfl
@[simp] theorem State.emit_charsets (o : Output) : (s.emit o).charsets = s.charsets := rfl
@[simp] theorem State.emit_blink (o : Output) : (s.emit o).blink = s.blink := rfl
@[simp] theorem State.emit_cpuQueue (o : Output) : (s.emit o).cpuQueue = s.cpuQueue := rfl
@[simp] theorem State.emit_hostQueue (o : Output) : (s.emit o).hostQueue = s.hostQueue := rfl
@[simp] theorem State.emit_schedule (o : Output) : (s.emit o).schedule = s.schedule := rfl
@[simp] theorem State.emit_draws (o : Output) : (s.emit o).draws = s.draws := rfl
@[simp] theorem State.emit_outputs (o : Output) : (s.emit o).outputs = s.outputs ++ [o] := rfl

@[simp] theorem State.withSchedule_cfg (l : List Agent) : (s.withSchedule l).cfg = s.cfg := rfl
@[simp] theorem State.withSchedule_regions (l : List Agent) : (s.withSchedule l).regions = s.regions := rfl
@[simp] theorem State.withSchedule_charsets (l : List Agent) : (s.withSchedule l).charsets = s.charsets := rfl
@[simp] theorem State.withSchedule_blink (l : List Agent) : (s.withSchedule l).blink = s.blink := rfl
@[simp] theorem State.withSchedule_cpuQueue (l : List Agent) : (s.withSchedule l).cpuQueue = s.cpuQueue := rfl
@[simp] theorem State.withSchedule_hostQueue (l : List Agent) : (s.withSchedule l).hostQueue = s.hostQueue := rfl
@[simp] theorem State.withSchedule_schedule (l : List Agent) : (s.withSchedule l).schedule = l := rfl
@[simp] theorem State.withSchedule_draws (l : List Agent) : (s.withSchedule l).draws = s.draws := rfl
@[simp] theorem State.withSchedule_outputs (l : List Agent) : (s.withSchedule l).outputs = s.outputs := rfl

@[simp] theorem State.withQueue_cpuSide_cfg (q : List Byte) : (s.withQueue .cpuSide q).cfg = s.cfg := rfl
@[simp] theorem State.withQueue_cpuSide_regions (q : List Byte) : (s.withQueue .cpuSide q).regions = s.regions := rfl
@[simp] theorem State.withQueue_cpuSide_charsets (q : List Byte) : (s.withQueue .cpuSide q).charsets = s.charsets := rfl
@[simp] theorem State.withQueue_cpuSide_blink (q : List Byte) : (s.withQueue .cpuSide q).blink = s.blink := rfl
@[simp] theorem State.withQueue_cpuSide_cpuQueue (q : List Byte) : (s.withQueue .cpuSide q).cpuQueue = q := rfl
@[simp] theorem State.withQueue_cpuSide_hostQueue (q : List Byte) : (s.withQueue .cpuSide q).hostQueue = s.hostQueue := rfl
@[simp] theorem State.withQueue_cpuSide_schedule (q : List Byte) : (s.withQueue .cpuSide q).schedule = s.schedule := rfl
@[simp] theorem State.withQueue_cpuSide_draws (q : List Byte) : (s.withQueue .cpuSide q).draws = s.draws := rfl
@[simp] theorem State.withQueue_cpuSide_outputs (q : List Byte) : (s.withQueue .cpuSide q).outputs = s.outputs := rfl

@[simp] theorem State.withQueue_host_cfg (q : List Byte) : (s.withQueue .host q).cfg = s.cfg := rfl
@[simp] theorem State.withQueue_host_regions (q : List Byte) : (s.withQueue .host q).regions = s.regions := rfl
@[simp] theorem State.withQueue_host_charsets (q : List Byte) : (s.withQueue .host q).charsets = s.charsets := rfl
@[simp] theorem State.withQueue_host_blink (q : List Byte) : (s.withQueue .host q).blink = s.blink := rfl
@[simp] theorem State.withQueue_host_cpuQueue (q : List Byte) : (s.withQueue .host q).cpuQueue = s.cpuQueue := rfl
@[simp] theorem State.withQueue_host_hostQueue (q : List Byte) : (s.withQueue .host q).hostQueue = q := rfl
@[simp] theorem State.withQueue_host_schedule (q : List Byte) : (s.withQueue .host q).schedule = s.schedule := rfl
@[simp] theorem State.withQueue_host_draws (q : List Byte) : (s.withQueue .host q).draws = s.draws := rfl
@[simp] theorem State.withQueue_host_outputs (q : List Byte) : (s.withQueue .host q).outputs = s.outputs := rfl

@[simp] theorem State.withQueue_cfg (a : Agent) (q : List Byte) : (s.withQueue a q).cfg = s.cfg := by cases a <;> rfl
@[simp] theorem State.withQueue_regions (a : Agent) (q : List Byte) : (s.withQueue a q).regions = s.regions := by cases a <;> rfl
@[simp] theorem State.withQueue_charsets (a : Agent) (q : List Byte) : (s.withQueue a q).charsets = s.charsets := by cases a <;> rfl
@[simp] theorem State.withQueue_blink (a : Agent) (q : List Byte) : (s.withQueue a q).blink = s.blink := by cases a <;> rfl
@[simp] theorem State.withQueue_schedule (a : Agent) (q : List Byte) : (s.withQueue a q).schedule = s.schedule := by cases a <;> rfl
@[simp] theorem State.withQueue_draws (a : Agent) (q : List Byte) : (s.withQueue a q).draws = s.draws := by cases a <;> rfl
@[simp] theorem State.withQueue_outputs (a : Agent) (q : List Byte) : (s.withQueue a q).outputs = s.outputs := by cases a <;> rfl

@[simp] theorem State.queue_cpuSide : s.queue .cpuSide = s.cpuQueue := rfl
@[simp] theorem State.queue_host : s.queue .host = s.hostQueue := rfl
@[simp] theorem State.withQueue_queue (a : Agent) (q : List Byte) : (s.withQueue a q).queue a = q := by cases a <;> rfl

theorem State.withQueue_queue_other (a b : Agent) (q : List Byte) (h : b ≠ a) :
    (s.withQueue a q).queue b = s.queue b := by
  cases a <;> cases b <;> first | rfl | exact absurd rfl h

@[simp] theorem snapshotOf_cfg : (snapshotOf s).cfg = s.cfg := rfl
@[simp] theorem snapshotOf_regions : (snapshotOf s).regions = s.regions := rfl
@[simp] theorem snapshotOf_charsets : (snapshotOf s).charsets = s.charsets := rfl

end Sys2Proof.Machine
end

