-- ==== Sys2Proof/Laws/RamWindow.lean ====
section
/-! SUPPORT. What the RAM-window operations of 40_register_access.md do, and what they leave alone. -/

namespace Sys2Proof.Machine

variable (s : State)

theorem sameButBytes_refl : sameButBytes s s := by simp [sameButBytes]

theorem sameButBytes_trans {s t u : State} (h : sameButBytes s t) (k : sameButBytes t u) : sameButBytes s u := by
  obtain ⟨h1, h2, h3, h4, h5, h6, h7, h8, h9⟩ := h
  obtain ⟨k1, k2, k3, k4, k5, k6, k7, k8, k9⟩ := k
  exact ⟨k1.trans h1, k2.trans h2, k3.trans h3, k4.trans h4, k5.trans h5, k6.trans h6, k7.trans h7, k8.trans h8,
    fun r => (k9 r).trans (h9 r)⟩

/-- A field write of the core changes region bytes only. -/
theorem setRamField_sameButBytes (off n v : Nat) : sameButBytes s (setRamField s off n v) := by
  simp [sameButBytes, setRamField, attached_write]

theorem setRamField_cfg (off n v : Nat) : (setRamField s off n v).cfg = s.cfg := rfl

theorem setRamField_attached (off n v : Nat) (r : Region) :
    attached (setRamField s off n v).regions r = attached s.regions r := attached_write ..

/-- Everything a field write of the core does to the bytes. -/
theorem setRamField_byte (off n v : Nat) (r : Region) (p : Nat) :
    regionByte s.cfg (setRamField s off n v).regions r p =
      if r = .ramw ∧ off ≤ p ∧ p < off + n ∧ p < regionLen s.cfg .ramw ∧ attached s.regions .ramw = true
      then BitVec.ofNat 8 (v / 256 ^ (p - off)) else regionByte s.cfg s.regions r p := regionByte_write ..

/-- A field written by the core reads back. -/
theorem ramField_setRamField (off n v : Nat) (hl : off + n ≤ regionLen s.cfg .ramw)
    (ha : attached s.regions .ramw = true) : ramField (setRamField s off n v) off n = v % 256 ^ n :=
  regionRead_write _ _ _ _ _ _ hl ha

/-- A field write of the core leaves every field apart from it. -/
theorem ramField_setRamField_other (off n v p k : Nat) (h : p + k ≤ off ∨ off + n ≤ p) :
    ramField (setRamField s off n v) p k = ramField s p k := by
  unfold ramField
  rw [setRamField_cfg]
  refine regionRead_congr _ _ _ _ _ _ fun q h1 h2 => ?_
  rw [setRamField_byte, if_neg]
  omega

/-- The clamp is the smaller of the value and `visible − 1`, and 0 for no visible cells. -/
theorem clampTo_eq (v visible : Nat) : clampTo v visible = min v (visible - 1) := by
  unfold clampTo
  omega

theorem movementEvent_regions : (movementEvent s).regions = s.regions := rfl
theorem movementEvent_cfg : (movementEvent s).cfg = s.cfg := rfl
theorem movementEvent_blink : (movementEvent s).blink = ⟨.visible, s.cfg.blinkRate⟩ := rfl

/-- What the side effects of a CPU-side store leave alone: all but the region bytes and the blink state. -/
theorem sideEffects_frame (r : Region) (off : Nat) :
    (sideEffects r off s).cfg = s.cfg ∧ (sideEffects r off s).charsets = s.charsets ∧
      (sideEffects r off s).cpuQueue = s.cpuQueue ∧ (sideEffects r off s).hostQueue = s.hostQueue ∧
      (sideEffects r off s).schedule = s.schedule ∧ (sideEffects r off s).draws = s.draws ∧
      (sideEffects r off s).outputs = s.outputs ∧
      ∀ q, attached (sideEffects r off s).regions q = attached s.regions q := by
  unfold sideEffects
  split
  · simp
  · split
    · simp [movementEvent, recomputePos, clampCol, setRamField, attached_write]
    · split
      · simp [movementEvent, recomputePos, clampRow, setRamField, attached_write]
      · split
        · simp [recomputePos, setRamField, attached_write]
        · simp

/-- The side effects of a CPU-side store touch no byte outside CURSOR_POS, CURSOR_COL and CURSOR_ROW. -/
theorem sideEffects_byte (r : Region) (off : Nat) (q : Region) (p : Nat)
    (h : q ≠ .ramw ∨ p < cursorPos ∨ cursorPos + 4 ≤ p ∧ p < cursorCol ∨ cursorRow + 2 ≤ p) :
    regionByte s.cfg (sideEffects r off s).regions q p = regionByte s.cfg s.regions q p := by
  have h' : ¬(q = .ramw ∧ 4 ≤ p ∧ p < 8) ∧ ¬(q = .ramw ∧ 14 ≤ p ∧ p < 16) ∧ ¬(q = .ramw ∧ 16 ≤ p ∧ p < 18) := by
    simp only [cursorPos, cursorCol, cursorRow] at h
    rcases h with h | h
    · simp [h]
    · omega
  have key : ∀ (t : State) (o n v : Nat), ¬(q = .ramw ∧ o ≤ p ∧ p < o + n) →
      regionByte t.cfg (setRamField t o n v).regions q p = regionByte t.cfg t.regions q p := by
    intro t o n v hn
    rw [setRamField_byte, if_neg (by tauto)]
  have k1 : ∀ t v, regionByte t.cfg (setRamField t cursorPos 4 v).regions q p = regionByte t.cfg t.regions q p :=
    fun t v => key t _ _ v h'.1
  have k2 : ∀ t v, regionByte t.cfg (setRamField t cursorCol 2 v).regions q p = regionByte t.cfg t.regions q p :=
    fun t v => key t _ _ v h'.2.1
  have k3 : ∀ t v, regionByte t.cfg (setRamField t cursorRow 2 v).regions q p = regionByte t.cfg t.regions q p :=
    fun t v => key t _ _ v h'.2.2
  unfold sideEffects
  split
  · rfl
  · split
    · exact (k1 (clampCol s) _).trans (k2 s _)
    · split
      · exact (k1 (clampRow s) _).trans (k3 s _)
      · split
        · exact k1 s _
        · rfl

/-- What a CPU-side byte write can do: nothing at an unmapped address, else the store and its side effects. -/
theorem writeByteBus_cases (a : Addr) (d : Byte) :
    (busDecode s.cfg s.regions a = none ∧ writeByteBus a d s = s) ∨
      ∃ r off, busDecode s.cfg s.regions a = some (r, off) ∧ attached s.regions r = true ∧ off < regionLen s.cfg r ∧
        writeByteBus a d s = sideEffects r off (s.withRegions (regionWriteByte s.cfg r off d s.regions)) := by
  unfold writeByteBus
  cases h : busDecode s.cfg s.regions a with
  | none => exact .inl ⟨rfl, rfl⟩
  | some p =>
    obtain ⟨r, off⟩ := p
    have hb := busDecode_some _ _ _ _ _ h
    exact .inr ⟨r, off, rfl, hb.1, hb.2.2, rfl⟩

/-- What a CPU-side byte write leaves alone: all but the region bytes and the blink state. -/
theorem writeByteBus_frame (a : Addr) (d : Byte) :
    (writeByteBus a d s).cfg = s.cfg ∧ (writeByteBus a d s).charsets = s.charsets ∧
      (writeByteBus a d s).cpuQueue = s.cpuQueue ∧ (writeByteBus a d s).hostQueue = s.hostQueue ∧
      (writeByteBus a d s).schedule = s.schedule ∧ (writeByteBus a d s).draws = s.draws ∧
      (writeByteBus a d s).outputs = s.outputs ∧
      ∀ q, attached (writeByteBus a d s).regions q = attached s.regions q := by
  rcases writeByteBus_cases s a d with ⟨-, h⟩ | ⟨r, off, -, -, -, h⟩
  · rw [h]
    simp
  · rw [h]
    have := sideEffects_frame (s.withRegions (regionWriteByte s.cfg r off d s.regions)) r off
    simpa [attached_writeByte] using this

theorem writeByteBus_cfg (a : Addr) (d : Byte) : (writeByteBus a d s).cfg = s.cfg := (writeByteBus_frame s a d).1

/-- What the side effects of a CPU-side store do to the blink state: a store to CURSOR_COL or CURSOR_ROW restarts it. -/
theorem sideEffects_blink (r : Region) (off : Nat) :
    (sideEffects r off s).blink =
      if r = .ramw ∧ cursorCol ≤ off ∧ off < cursorRow + 2 then ⟨.visible, s.cfg.blinkRate⟩ else s.blink := by
  unfold sideEffects
  by_cases hr : r = .ramw
  · simp only [hr, ne_eq, not_true_eq_false, if_false, true_and]
    simp only [cursorCol, cursorRow, screenBase]
    by_cases h1 : 14 ≤ off ∧ off < 14 + 2
    · rw [if_pos h1, if_pos (by omega)]
      rfl
    · rw [if_neg h1]
      by_cases h2 : 16 ≤ off ∧ off < 16 + 2
      · rw [if_pos h2, if_pos (by omega)]
        rfl
      · have h3 : ¬(14 ≤ off ∧ off < 16 + 2) := by omega
        rw [if_neg h2, if_neg h3]
        split <;> rfl
  · simp [hr]

/-- A byte write to a mapped address is the store and its side effects. -/
theorem writeByteBus_mapped (r : Region) (off : Nat) (a : Addr) (d : Byte) (hv : configValid s.cfg = true)
    (hm : mapped s r off a) :
    writeByteBus a d s = sideEffects r off (s.withRegions (regionWriteByte s.cfg r off d s.regions)) := by
  simp [writeByteBus, busDecode_mapped s r off a hv hm]

/-- Outside SCREEN_BASE, CURSOR_COL and CURSOR_ROW a store has no side effect. -/
theorem sideEffects_plain (r : Region) (off : Nat) (h : r = .ramw → 0x04 ≤ off ∧ off < 0x0E ∨ 0x12 ≤ off) :
    sideEffects r off s = s := by
  unfold sideEffects
  by_cases hr : r = .ramw
  · have := h hr
    simp only [hr, ne_eq, not_true_eq_false, if_false, cursorCol, cursorRow, screenBase]
    rw [if_neg (by omega), if_neg (by omega), if_neg (by omega)]
  · simp [hr]

/-- Every byte after the store of a byte write, before its side effects. -/
theorem store_byteAt (r : Region) (off : Nat) (a : Addr) (d : Byte) (hm : mapped s r off a) (q : Region) (p : Nat) :
    (s.withRegions (regionWriteByte s.cfg r off d s.regions)).byteAt q p =
      if q = r ∧ p = off then d else s.byteAt q p := by
  show regionByte s.cfg (regionWriteByte s.cfg r off d s.regions) q p = _
  rw [regionByte_writeByte]
  simp [hm.1, hm.2.1, State.byteAt]

/-- Byte writes map no address anew and unmap none. -/
theorem mapped_writeByteBus (b : Addr) (d : Byte) (r : Region) (off : Nat) (a : Addr) :
    mapped (writeByteBus b d s) r off a ↔ mapped s r off a := by
  obtain ⟨h1, -, -, -, -, -, -, h⟩ := writeByteBus_frame s b d
  simp only [mapped, h1, h]

end Sys2Proof.Machine
end

