-- ==== Sys2Proof/Laws/Raster.lean ====
section
/-! SUPPORT. What the resolver, the frame array and a pixel write answer (41_frame_composer.md, 44_color_lookup.md). -/

namespace Sys2Proof.Machine

@[simp] theorem paint_transparent (p : Pixel) : paint p .transparent = p := rfl
@[simp] theorem paint_solid (p : Pixel) (c : Rgb) : paint p (.solid c) = .solid c := rfl

/-- An entry inside a resolved palette is its colour record (R221). -/
theorem entry_resolve (sn : Snapshot) (r : Region) (base count i : Nat) (h : i < count) :
    entry (resolve sn r base count) i = color sn r (base + colorRecord * i) := by
  simp [entry, resolve, List.getD, h]

/-- A frame's pixel is the raster's, at every pixel of the frame. -/
theorem Frame.pixel_ofRaster (F : Raster) (x y : Nat) (hx : x < frameW) (hy : y < frameH) :
    (Frame.ofRaster F).pixel x y = F.px x y := by
  simp only [frameW, frameH] at hx hy
  simp [Frame.pixel, Frame.ofRaster, List.getD, hx, hy]

/-- Every frame built is a 640 × 480 array (R32). -/
theorem Frame.ofRaster_shape (F : Raster) :
    (Frame.ofRaster F).rows.length = frameH ∧ ∀ row ∈ (Frame.ofRaster F).rows, row.length = frameW := by
  refine ⟨by simp [Frame.ofRaster], fun row h => ?_⟩
  obtain ⟨y, -, rfl⟩ := List.mem_map.mp h
  simp

end Sys2Proof.Machine
end

