-- ==== Sys2Proof/Laws/Tick.lean ====
section
/-! SUPPORT. What a TICK does, and what its layers and the rules' loops make of one pixel (41_frame_composer.md,
42_text_mode.md, 43_bitmap_mode.md). -/

namespace Sys2Proof.Machine

/-- A TICK as one equation. -/
theorem execTick_eq (s : State) :
    exec .tick s = .next (((s.emit (.tick (compose (snapshotOf s) s.blink s.draws).1
      (compose (snapshotOf s) s.blink s.draws).2)).withDraws
        (drawsAfter s.draws (compose (snapshotOf s) s.blink s.draws).2)).withBlink (blinkStep s.cfg s.blink)) := rfl

/-- What a TICK presents is what compose answers. -/
theorem presents_iff (s : State) (f : Frame) (diag : List DiagReason) :
    presents s f diag ↔ compose (snapshotOf s) s.blink s.draws = (f, diag) := by
  unfold presents
  rw [execTick_eq]
  constructor
  · rintro ⟨t, h1, h2⟩
    cases h1
    simp at h2
    exact Prod.ext h2.1 h2.2
  · intro h
    exact ⟨_, rfl, by simp [h]⟩

theorem allAttached_iff (g : Regions) : allAttached g = true ↔ ∀ r, attached g r = true := by
  simp only [allAttached, Bool.and_eq_true]
  exact ⟨fun h r => by cases r <;> simp [h], fun h => ⟨⟨h _, h _⟩, h _⟩⟩

theorem lutSel_eq (b : Byte) : lutSel b = b.toNat / 2 % 8 := by
  simp [lutSel, BitVec.extractLsb'_toNat, Nat.shiftRight_eq_div_pow]

theorem fgIdx_eq (b : Byte) : fgIdx b = b.toNat / 16 := by
  simp only [fgIdx, BitVec.extractLsb'_toNat, Nat.shiftRight_eq_div_pow]
  have := b.isLt
  omega

theorem bgIdx_eq (b : Byte) : bgIdx b = b.toNat % 16 := by
  simp [bgIdx, BitVec.extractLsb'_toNat]

/-- A write of a loop at a pixel of the frame. -/
theorem frameWrite_px (F : Canvas) (a b : Int) (p : Pixel) (x y : Nat) (hx : x < 640) (hy : y < 480) :
    frameWrite F a b p x y = if a = x ∧ b = y then paint (F x y) p else F x y := by
  unfold frameWrite
  by_cases h : a = x ∧ b = y
  · obtain ⟨rfl, rfl⟩ := h
    rw [if_neg (by simp only [frameW, frameH]; omega)]
    cases p <;> simp
  · rw [if_neg h]
    split
    · rfl
    · split
      · rfl
      · simp only
        rw [if_neg]
        rintro ⟨h1, h2⟩
        exact h ⟨h1.symm, h2.symm⟩

/-- A loop of which only the turn `k` can touch a pixel. -/
theorem forUpTo_single (n : Nat) (k : Int) (body : Nat → Canvas → Canvas) (F : Canvas) (X Y : Int) (q : Pixel → Pixel)
    (h : ∀ i G, i < n → (body i G) X Y = if (i : Int) = k then q (G X Y) else G X Y) :
    (forUpTo n body F) X Y = if 0 ≤ k ∧ k < n then q (F X Y) else F X Y := by
  induction n with
  | zero =>
    rw [if_neg (by omega)]
    rfl
  | succ n ih =>
    have e : forUpTo (n + 1) body F = body n (forUpTo n body F) := by simp [forUpTo, List.range_succ]
    rw [e, h n _ (by omega), ih (fun i G hi => h i G (by omega))]
    by_cases h1 : (n : Int) = k
    · rw [if_pos h1, if_neg (by omega), if_pos (by omega)]
    · rw [if_neg h1]
      by_cases h2 : 0 ≤ k ∧ k < n
      · rw [if_pos h2, if_pos (by omega)]
      · rw [if_neg h2, if_neg (by omega)]

end Sys2Proof.Machine
end

