-- ==== Sys2Proof/Laws/Compose.lean ====
section
/-! SUPPORT. What a frame depends on: two snapshots that agree on the bytes and bits that rendering reads compose alike. -/

namespace Sys2Proof.Machine

/-- The two snapshots agree on everything that the rules of rendering read. -/
structure SameReads (sn sm : Snapshot) : Prop where
  cfg : sm.cfg = sn.cfg
  sets : sm.charsets = sn.charsets
  att : ∀ r, attached sm.regions r = attached sn.regions r
  vram : ∀ o, sm.byte .vram o = sn.byte .vram o
  ramw : ∀ o, 0x08 ≤ o → o < 0x12 → sm.byte .ramw o = sn.byte .ramw o
  io : ∀ o, ¬ unreadByte .io o → o ≠ 0 → o ≠ 0x10 → o ≠ 0x100 → sm.byte .io o = sn.byte .io o
  mode0 : (sm.byte .io 0).getLsbD 0 = (sn.byte .io 0).getLsbD 0
  mode3 : (sm.byte .io 0).getLsbD 3 = (sn.byte .io 0).getLsbD 3
  mode1 : (sn.byte .io 0).getLsbD 0 = true → (sm.byte .io 0).getLsbD 1 = (sn.byte .io 0).getLsbD 1
  cursor : (sm.byte .io 0x10).getLsbD 0 = (sn.byte .io 0x10).getLsbD 0
  bitmap : (sm.byte .io 0x100).toNat % 16 = (sn.byte .io 0x100).toNat % 16

theorem Snapshot.read_congr (sn sm : Snapshot) (r : Region) (off n : Nat) (hc : sm.cfg = sn.cfg)
    (h : ∀ p, off ≤ p → p < off + n → sm.byte r p = sn.byte r p) : sm.read r off n = sn.read r off n := by
  unfold Snapshot.read
  rw [hc]
  refine regionRead_congr _ _ _ _ _ _ fun p h1 h2 => ?_
  have e := h p h1 h2
  unfold Snapshot.byte at e
  rwa [hc] at e

/-- A field of RAMW that rendering reads. -/
theorem SameReads.ramw_read {sn sm : Snapshot} (h : SameReads sn sm) (off n : Nat) (h1 : 0x08 ≤ off) (h2 : off + n ≤ 0x12) :
    sm.read .ramw off n = sn.read .ramw off n :=
  Snapshot.read_congr _ _ _ _ _ h.cfg fun p _ _ => h.ramw p (by omega) (by omega)

/-- A field of the bitmap operands. -/
theorem SameReads.bitmap_read {sn sm : Snapshot} (h : SameReads sn sm) (off n : Nat) (h1 : 0x101 ≤ off)
    (h2 : off + n ≤ 0x109) : sm.read .io off n = sn.read .io off n :=
  Snapshot.read_congr _ _ _ _ _ h.cfg fun p _ _ =>
    h.io p (by simp only [unreadByte]; omega) (by omega) (by omega) (by omega)

/-- A palette or LUT bank in one of the ranges of colour records. -/
theorem SameReads.resolve_io {sn sm : Snapshot} (h : SameReads sn sm) (base count : Nat) (hb : base % 4 = 0)
    (hr : 0x1F40 ≤ base ∧ base + 4 * count ≤ 0x1FC0 ∨ 0x2000 ≤ base ∧ base + 4 * count ≤ 0x4000) :
    resolve sm .io base count = resolve sn .io base count := by
  have e : ∀ p, base ≤ p → p < base + 4 * count → p % 4 ≠ 3 → sm.byte .io p = sn.byte .io p := fun p h1 h2 h3 =>
    h.io p (by simp only [unreadByte]; omega) (by omega) (by omega) (by omega)
  unfold resolve
  refine List.map_congr_left fun i hi => ?_
  have hi := List.mem_range.mp hi
  unfold color colorRecord
  rw [e _ (by omega) (by omega) (by omega), e _ (by omega) (by omega) (by omega), e _ (by omega) (by omega) (by omega)]

theorem SameReads.cellPixel {sn sm : Snapshot} (h : SameReads sn sm) (cs : CharSet) (ov : Bool) (fp bp : List Pixel)
    (S r c dx dy : Nat) : Machine.cellPixel sm cs ov fp bp S r c dx dy = Machine.cellPixel sn cs ov fp bp S r c dx dy := by
  have e : ∀ o, 0xA000 ≤ o → sm.byte .io o = sn.byte .io o := fun o ho =>
    h.io o (by simp only [unreadByte]; omega) (by omega) (by omega) (by omega)
  unfold Machine.cellPixel
  rw [e _ (by simp only [charPlane]; omega), e _ (by simp only [colorPlane, charPlane]; omega), h.cfg]

theorem SameReads.bitmapLayer {sn sm : Snapshot} (h : SameReads sn sm) : Machine.bitmapLayer sm = Machine.bitmapLayer sn := by
  have hb := h.bitmap
  have hsel : lutSel (sm.byte .io bmCtrl) = lutSel (sn.byte .io bmCtrl) := by
    rw [lutSel_eq, lutSel_eq]
    simp only [bmCtrl]
    omega
  have hen : bmEn (sm.byte .io bmCtrl) = bmEn (sn.byte .io bmCtrl) := by
    unfold bmEn bmCtrl
    simp only [BitVec.getLsbD, Nat.testBit_zero]
    congr 1
    rw [eq_iff_iff]
    omega
  have hlut : lutBank sm (lutSel (sn.byte .io bmCtrl)) = lutBank sn (lutSel (sn.byte .io bmCtrl)) := by
    have := lutSel_eq (sn.byte .io bmCtrl)
    exact h.resolve_io _ _ (by simp only [lutBase, lutStride]; omega)
      (by simp only [lutBase, lutStride, lutEntries]; omega)
  funext F
  unfold Machine.bitmapLayer
  simp only [hen, h.bitmap_read bmStart 4 (by decide) (by decide), h.bitmap_read bmWidth 2 (by decide) (by decide),
    h.bitmap_read bmHeight 2 (by decide) (by decide), hsel, hlut, h.vram]

/-- The frame depends on nothing but the bytes, bits and glyphs that rendering reads, and on the blink phase. -/
theorem SameReads.compose {sn sm : Snapshot} (h : SameReads sn sm) (b b' : Blink) (k : Nat) (hb : b'.phase = b.phase) :
    Machine.compose sm b' k = Machine.compose sn b k := by
  have hall : allAttached sm.regions = allAttached sn.regions := by simp [allAttached, h.att]
  have hcur : ∀ xo yo F, drawCursor sm b' xo yo F = drawCursor sn b xo yo F := by
    intro xo yo F
    have e : cursorEn (sm.byte .io cursorCtrl) = cursorEn (sn.byte .io cursorCtrl) := h.cursor
    unfold drawCursor cursorOrigin
    simp only [e, h.ramw_read cursorCol 2 (by decide) (by decide), h.ramw_read cursorRow 2 (by decide) (by decide), h.cfg,
      hb]
  have hgrid : textGrid sm = textGrid sn := by
    have hfg : fgPalette sm = fgPalette sn := h.resolve_io _ _ (by decide) (by decide)
    have hbg : bgPalette sm = bgPalette sn := h.resolve_io _ _ (by decide) (by decide)
    funext cs ov C L S xo yo F
    unfold textGrid
    simp only [h.cellPixel, hfg, hbg]
  have ht : textEn (sm.byte .io modeReg) = textEn (sn.byte .io modeReg) := h.mode0
  have hbe : bitmapEn (sm.byte .io modeReg) = bitmapEn (sn.byte .io modeReg) := h.mode3
  unfold Machine.compose composeRaster
  simp only [hall, ht, hbe, h.bitmapLayer]
  by_cases hte : textEn (sn.byte .io modeReg) = true
  · have hov : overlayEn (sm.byte .io modeReg) = overlayEn (sn.byte .io modeReg) := h.mode1 hte
    simp only [hov]
    unfold textLayer
    simp only [h.ramw_read colsVisible 2 (by decide) (by decide), h.ramw_read linesVisible 2 (by decide) (by decide),
      h.ramw_read lineStride 2 (by decide) (by decide), h.sets, hcur, hgrid]
  · simp only [hte]
    rfl

end Sys2Proof.Machine
end

