-- ==== Sys2Proof/Laws/Operands.lean ====
section
/-! SUPPORT. Words and their bytes are each other's inverse (20_memory.md R64). -/

namespace Sys2Proof.Machine

theorem byteOf_toNat {w : Nat} (v : BitVec w) (i : Nat) : (byteOf v i).toNat = v.toNat / 2 ^ (8 * i) % 256 := by
  simp [byteOf, BitVec.extractLsb'_toNat, Nat.shiftRight_eq_div_pow]

theorem append_toNat {n : Nat} (x : BitVec n) (y : Byte) : (x ++ y).toNat = x.toNat * 256 + y.toNat := by
  rw [BitVec.toNat_append, ← Nat.shiftLeft_add_eq_or_of_lt y.isLt, Nat.shiftLeft_eq]

theorem le16_toNat (b0 b1 : Byte) : (le16 b0 b1).toNat = b0.toNat + 256 * b1.toNat := by
  rw [le16, append_toNat]
  omega

theorem le32_toNat (b0 b1 b2 b3 : Byte) :
    (le32 b0 b1 b2 b3).toNat = b0.toNat + 256 * (b1.toNat + 256 * (b2.toNat + 256 * b3.toNat)) := by
  rw [le32, append_toNat, append_toNat, append_toNat]
  omega

/-- A word is made of its bytes. -/
theorem le16_byteOf (v : Half) : le16 (byteOf v 0) (byteOf v 1) = v := by
  apply BitVec.eq_of_toNat_eq
  rw [le16_toNat, byteOf_toNat, byteOf_toNat]
  have := v.isLt
  omega

/-- A long is made of its bytes. -/
theorem le32_byteOf (v : Long) : le32 (byteOf v 0) (byteOf v 1) (byteOf v 2) (byteOf v 3) = v := by
  apply BitVec.eq_of_toNat_eq
  rw [le32_toNat, byteOf_toNat, byteOf_toNat, byteOf_toNat, byteOf_toNat]
  have := v.isLt
  omega

/-- The bytes of an assembled word. -/
theorem halfBytes_le16 (b0 b1 : Byte) : halfBytes (le16 b0 b1) = [b0, b1] := by
  have h0 := b0.isLt
  have h1 := b1.isLt
  have e0 : byteOf (le16 b0 b1) 0 = b0 := BitVec.eq_of_toNat_eq (by rw [byteOf_toNat, le16_toNat]; omega)
  have e1 : byteOf (le16 b0 b1) 1 = b1 := BitVec.eq_of_toNat_eq (by rw [byteOf_toNat, le16_toNat]; omega)
  rw [halfBytes, e0, e1]

/-- The bytes of an assembled long. -/
theorem longBytes_le32 (b0 b1 b2 b3 : Byte) : longBytes (le32 b0 b1 b2 b3) = [b0, b1, b2, b3] := by
  have h0 := b0.isLt
  have h1 := b1.isLt
  have h2 := b2.isLt
  have h3 := b3.isLt
  have e0 : byteOf (le32 b0 b1 b2 b3) 0 = b0 := BitVec.eq_of_toNat_eq (by rw [byteOf_toNat, le32_toNat]; omega)
  have e1 : byteOf (le32 b0 b1 b2 b3) 1 = b1 := BitVec.eq_of_toNat_eq (by rw [byteOf_toNat, le32_toNat]; omega)
  have e2 : byteOf (le32 b0 b1 b2 b3) 2 = b2 := BitVec.eq_of_toNat_eq (by rw [byteOf_toNat, le32_toNat]; omega)
  have e3 : byteOf (le32 b0 b1 b2 b3) 3 = b3 := BitVec.eq_of_toNat_eq (by rw [byteOf_toNat, le32_toNat]; omega)
  rw [longBytes, e0, e1, e2, e3]

/-- A region's code names it (R112). -/
theorem regionOfCode_codeOfRegion (r : Region) : regionOfCode (codeOfRegion r) = some r := by
  cases r <;> rfl

/-- Only its code names a region (R112). -/
theorem codeOfRegion_regionOfCode (code : Byte) (r : Region) (h : regionOfCode code = some r) :
    codeOfRegion r = code := by
  unfold regionOfCode at h
  split at h
  · next hc => cases h; exact hc.symm
  · split at h
    · next hc => cases h; exact hc.symm
    · split at h
      · next hc => cases h; exact hc.symm
      · cases h

end Sys2Proof.Machine
end

