-- ==== Sys2Proof/Laws/Decode.lean ====
section
/-! SUPPORT. What each format of the decoder accepts (30_encoding.md R111, R114). -/

namespace Sys2Proof

open Sys2Proof.Machine

/-- The decoder's choice of format by the opcode byte. -/
theorem decode_cons (op : Byte) (bs : List Byte) :
    decode (op :: bs) =
      if op = 0x01#8 then decodeA .readByte op bs
      else if op = 0x02#8 then decodeAD8 .writeByte op bs
      else if op = 0x03#8 then decodeA .readWord op bs
      else if op = 0x04#8 then decodeAD16 .writeWord op bs
      else if op = 0x05#8 then decodeA .readLong op bs
      else if op = 0x06#8 then decodeAD32 .writeLong op bs
      else if op = 0x07#8 then decodeR .queryRange op bs
      else if op = 0x10#8 then .ok (.tick, bs)
      else if op = 0x20#8 then decodeL op bs
      else if op = 0x30#8 then decodeR .attachRegion op bs
      else .error (.unknownOpcode op) := rfl

theorem decodeA_ok (mk : Addr → Instr) (op : Byte) (bs rest : List Byte) (i : Instr)
    (h : decodeA mk op bs = .ok (i, rest)) : ∃ a, i = mk a ∧ bs = longBytes a ++ rest := by
  unfold decodeA at h
  split at h
  · cases h
    exact ⟨_, rfl, by simp [longBytes_le32]⟩
  · cases h

theorem decodeAD8_ok (mk : Addr → Byte → Instr) (op : Byte) (bs rest : List Byte) (i : Instr)
    (h : decodeAD8 mk op bs = .ok (i, rest)) : ∃ a d, i = mk a d ∧ bs = longBytes a ++ d :: rest := by
  unfold decodeAD8 at h
  split at h
  · cases h
    exact ⟨_, _, rfl, by simp [longBytes_le32]⟩
  · cases h

theorem decodeAD16_ok (mk : Addr → Half → Instr) (op : Byte) (bs rest : List Byte) (i : Instr)
    (h : decodeAD16 mk op bs = .ok (i, rest)) :
    ∃ a d, i = mk a d ∧ bs = longBytes a ++ (halfBytes d ++ rest) := by
  unfold decodeAD16 at h
  split at h
  · cases h
    exact ⟨_, _, rfl, by simp [longBytes_le32, halfBytes_le16]⟩
  · cases h

theorem decodeAD32_ok (mk : Addr → Long → Instr) (op : Byte) (bs rest : List Byte) (i : Instr)
    (h : decodeAD32 mk op bs = .ok (i, rest)) :
    ∃ a d, i = mk a d ∧ bs = longBytes a ++ (longBytes d ++ rest) := by
  unfold decodeAD32 at h
  split at h
  · cases h
    exact ⟨_, _, rfl, by simp [longBytes_le32]⟩
  · cases h

theorem decodeR_ok (mk : Region → Instr) (op : Byte) (bs rest : List Byte) (i : Instr)
    (h : decodeR mk op bs = .ok (i, rest)) : ∃ r, i = mk r ∧ bs = codeOfRegion r :: rest := by
  unfold decodeR at h
  split at h
  · split at h
    · next hr =>
      cases h
      exact ⟨_, rfl, by rw [codeOfRegion_regionOfCode _ _ hr]⟩
    · cases h
  · cases h

theorem decodeL_ok (op : Byte) (bs rest : List Byte) (i : Instr) (h : decodeL op bs = .ok (i, rest)) :
    ∃ r toff soff gw gh id tag stream, i = .loadCharset r toff soff gw gh id tag stream ∧ stream.length < 2 ^ 32 ∧
      bs = codeOfRegion r :: (longBytes toff ++ (longBytes soff ++ ([gw, gh, id, tag] ++
        (longBytes (BitVec.ofNat 32 stream.length) ++ (stream ++ rest))))) := by
  unfold decodeL at h
  split at h
  · next code t0 t1 t2 t3 s0 s1 s2 s3 gw gh id tag n0 n1 n2 n3 rs =>
    split at h
    · cases h
    · next r hr =>
      split at h
      · cases h
      · next hl =>
        cases h
        have hlen : (List.take (le32 n0 n1 n2 n3).toNat rs).length = (le32 n0 n1 n2 n3).toNat := by
          rw [List.length_take]
          omega
        refine ⟨r, _, _, gw, gh, id, tag, _, rfl, ?_, ?_⟩
        · rw [hlen]
          exact (le32 n0 n1 n2 n3).isLt
        · rw [hlen, BitVec.ofNat_toNat, BitVec.setWidth_eq]
          simp [longBytes_le32, codeOfRegion_regionOfCode _ _ hr]
  · cases h

end Sys2Proof
end

