-- ==== Sys2Proof/Laws/Exec.lean ====
section
/-! SUPPORT. What every operation leaves alone, and what the parts of the invariant are. -/

namespace Sys2Proof.Machine

/-- No operation changes the parameters, the queues or the schedule. -/
theorem exec_frame (i : Instr) (s t : State) (h : exec i s = .next t) :
    t.cfg = s.cfg ∧ t.cpuQueue = s.cpuQueue ∧ t.hostQueue = s.hostQueue ∧ t.schedule = s.schedule := by
  have w : ∀ (u : State) a d, (writeByteBus a d u).cfg = u.cfg ∧ (writeByteBus a d u).cpuQueue = u.cpuQueue ∧
      (writeByteBus a d u).hostQueue = u.hostQueue ∧ (writeByteBus a d u).schedule = u.schedule := by
    intro u a d
    obtain ⟨h1, -, h3, h4, h5, -⟩ := writeByteBus_frame u a d
    exact ⟨h1, h3, h4, h5⟩
  cases i with
  | readByte a => cases h; simp
  | readWord a => cases h; simp
  | readLong a => cases h; simp
  | writeByte a d => cases h; exact w _ _ _
  | writeWord a d => cases h; simp [w]
  | writeLong a d => cases h; simp [w]
  | queryRange r => simp only [exec, execQueryRange] at h; split at h <;> cases h <;> simp
  | tick => cases h; simp
  | loadCharset => simp only [exec, execLoadCharset] at h; split at h <;> cases h <;> simp
  | attachRegion r => simp only [exec, execAttachRegion] at h; split at h <;> cases h <;> simp

/-- The parts of the invariant, as propositions. -/
theorem State.inv_iff (s : State) :
    s.inv = true ↔ configValid s.cfg = true ∧ (∀ r, regionOk s.cfg s.regions r = true) ∧
      (∀ c ∈ s.charsets, charsetOk c = true) ∧ (1 ≤ s.blink.countdown ∧ s.blink.countdown ≤ s.cfg.blinkRate) ∧
      ∀ o ∈ s.outputs, outputOk o = true := by
  simp only [State.inv, Bool.and_eq_true, List.all_eq_true, decide_eq_true_eq]
  constructor
  · rintro ⟨⟨⟨⟨h1, ⟨h2, h3⟩, h4⟩, h5⟩, h6⟩, h7⟩
    exact ⟨h1, fun r => by cases r <;> assumption, h5, h6, h7⟩
  · rintro ⟨h1, h2, h5, h6, h7⟩
    exact ⟨⟨⟨⟨h1, ⟨h2 _, h2 _⟩, h2 _⟩, h5⟩, h6⟩, h7⟩

/-- Running one more operation after a list of them. -/
theorem execAll_append (is : List Instr) (j : Instr) (s t : State) (h : execAll is s = .next t) :
    execAll (is ++ [j]) s = exec j t := by
  induction is generalizing s with
  | nil =>
    cases h
    simp only [List.nil_append, execAll]
    generalize exec j t = o
    cases o <;> rfl
  | cons i is ih =>
    simp only [execAll, List.cons_append] at *
    cases hi : exec i s with
    | next u =>
      simp only [hi] at h ⊢
      exact ih u h
    | fault f => cases f
    | refused r => simp [hi] at h

/-- The bytes a wide write stores, as numbers. -/
theorem byteOf_eq_ofNat {w : Nat} (v : BitVec w) (k : Nat) : byteOf v k = BitVec.ofNat 8 (v.toNat / 256 ^ k) := by
  apply BitVec.eq_of_toNat_eq
  rw [byteOf_toNat, BitVec.toNat_ofNat, pow_mul]
  rfl

end Sys2Proof.Machine
end

