-- ==== Sys2Proof/Laws/PerInstr.lean ====
section
/-! SUPPORT. Facts about every operation as syntax, one lemma for each constructor. -/

/-! The bytes of an operation: as many as its format says (30_encoding.md R114), the first one its opcode (R110, R111). -/

/-- The encoded length is the format's, and byte 0 is the opcode. -/
def Sys2Proof.Laws.EncodedShape.Statement (i : Sys2Proof.Instr) : Prop :=
  (Sys2Proof.encode i).length = Sys2Proof.opLength i ∧ (Sys2Proof.encode i).head? = some (Sys2Proof.opcode i)

namespace Sys2Proof.Laws.EncodedShape

open Sys2Proof

theorem readByte (a : Addr) : Statement (.readByte a) := ⟨rfl, rfl⟩
theorem writeByte (a : Addr) (d : Byte) : Statement (.writeByte a d) := ⟨rfl, rfl⟩
theorem readWord (a : Addr) : Statement (.readWord a) := ⟨rfl, rfl⟩
theorem writeWord (a : Addr) (d : Half) : Statement (.writeWord a d) := ⟨rfl, rfl⟩
theorem readLong (a : Addr) : Statement (.readLong a) := ⟨rfl, rfl⟩
theorem writeLong (a : Addr) (d : Long) : Statement (.writeLong a d) := ⟨rfl, rfl⟩
theorem queryRange (r : Region) : Statement (.queryRange r) := ⟨rfl, rfl⟩
theorem tick : Statement .tick := ⟨rfl, rfl⟩
theorem loadCharset (r : Region) (toff soff : BitVec 32) (gw gh id tag : Byte) (stream : List Byte) :
    Statement (.loadCharset r toff soff gw gh id tag stream) := by
  refine ⟨?_, rfl⟩
  simp [encode, opLength, Machine.longBytes]
  omega
theorem attachRegion (r : Region) : Statement (.attachRegion r) := ⟨rfl, rfl⟩

end Sys2Proof.Laws.EncodedShape
end

