-- ==== Sys2Proof/Laws/Step.lean ====
section
/-! SUPPORT. What one step can do. -/

namespace Sys2Proof.Machine

/-- Everything a step that answers a next state can be: no turn left, the turn of an agent with nothing issued, or the
operation at the front of the queue of the agent whose turn it is. -/
theorem step_cases (s t : State) (h : step s = .next t) :
    configValid s.cfg = true ∧
      ((s.schedule = [] ∧ t = s) ∨
        ∃ a later, s.schedule = a :: later ∧
          ((s.queue a = [] ∧ t = s.withSchedule later) ∨
            ∃ i rest, decode (s.queue a) = .ok (i, rest) ∧ issuer i = a ∧
              exec i ((s.withSchedule later).withQueue a rest) = .next t)) := by
  unfold step at h
  split at h
  · next hv =>
    refine ⟨hv, ?_⟩
    unfold takeNext at h
    cases hs : s.schedule with
    | nil =>
      simp only [hs] at h
      cases h
      exact .inl ⟨rfl, rfl⟩
    | cons a later =>
      refine .inr ⟨a, later, rfl, ?_⟩
      simp only [hs] at h
      cases hq : s.queue a with
      | nil =>
        simp only [hq] at h
        cases h
        exact .inl ⟨rfl, rfl⟩
      | cons b bs =>
        simp only [hq] at h
        cases hd : decode (b :: bs) with
        | error e => simp [hd] at h
        | ok p =>
          obtain ⟨i, rest⟩ := p
          simp only [hd] at h
          by_cases hi : issuer i = a
          · rw [if_pos hi] at h
            exact .inr ⟨i, rest, rfl, hi, h⟩
          · rw [if_neg hi] at h
            cases h
  · cases h

/-- The decision a step makes where an agent's bytes decode. -/
theorem takeNext_decoded (s : State) (a : Agent) (later : List Agent) (i : Instr) (rest : List Byte)
    (hs : s.schedule = a :: later) (hd : decode (s.queue a) = .ok (i, rest)) (hi : issuer i = a) :
    takeNext s = .op i ((s.withSchedule later).withQueue a rest) := by
  unfold takeNext
  simp only [hs]
  cases hq : s.queue a with
  | nil =>
    rw [hq] at hd
    cases hd
  | cons b bs =>
    rw [hq] at hd
    simp [hd, hi]

end Sys2Proof.Machine
end

