-- ==== Sys2Proof/Tests/Slice0.lean ====
section
/-! SUPPORT. Tests. Expected results come from the vectors of spec/95_test_vectors.md (named in the docstrings) or are
worked out from the rules by hand; the `test_witness_` theorems show that the hypotheses of the obligations can be met. -/

namespace Sys2Proof.Tests

open Sys2Proof Sys2Proof.Machine

/-! ## Small states -/

/-- The default parameters with known values for the open colours. -/
def cfg0 : Config := { Config.default with bakedFg := .solid ⟨1, 2, 3⟩, cursorColor := ⟨4, 5, 6⟩ }

/-- Nothing attached. -/
def dark : State := State.powerOn cfg0

/-- All three regions attached, with the given bytes of RAMW and IO. -/
def lit (ramw io : Memory) : State := { dark with regions := ⟨some [], some ramw, some io⟩ }

/-- The glyph 'A' of the vectors' FONT. -/
def glyphA : Glyph := ⟨#v[0x18, 0x24, 0x42, 0x7E, 0x42, 0x42, 0x42, 0x00]⟩

/-- The set that the vectors' FONT loads. -/
def fontSet : CharSet :=
  ⟨1, 0, (List.range 256).map fun k => if k = 0x41 then glyphA else ⟨Vector.replicate 8 0⟩⟩

/-- RAMW of E1: C = 80, L = 25, S = 80. -/
def gridBytes : Memory := [(0x08, 80), (0x0A, 25), (0x0C, 80)]

/-- The state of E1 right before its TICK. -/
def textState : State :=
  { lit gridBytes [(0, 0x01), (0x1F7C, 0xFF), (0x1F7D, 0xFF), (0x1F7E, 0xFF), (0x1F80, 0x80), (0xA000, 0x41),
      (0xE000, 0xF0)] with charsets := [fontSet] }

/-- RAMW and IO of T50: C = 40, L = 30, col 39, row 3, text and cursor enabled, under overlay. -/
def cursorState : State :=
  { lit [(0x08, 40), (0x0A, 30), (0x0C, 40), (0x0E, 39), (0x10, 3)] [(0, 0x03), (0x10, 0x01)] with
    charsets := [fontSet] }

/-- A bitmap of width 2 and height 2 from VRAM offset 0x3FFFFF, bank 1, MODE = 0x08. -/
def bitmapState : State :=
  { lit [] [(0, 0x08), (0x100, 0x03), (0x101, 0xFF), (0x102, 0xFF), (0x103, 0x3F), (0x105, 2), (0x107, 2),
      (0x241C, 0x10), (0x241D, 0x20), (0x241E, 0x30), (0x241F, 0x99)] with
    regions := ⟨some [(0x3FFFFF, 7)], some [],
      some [(0, 0x08), (0x100, 0x03), (0x101, 0xFF), (0x102, 0xFF), (0x103, 0x3F), (0x105, 2), (0x107, 2),
        (0x241C, 0x10), (0x241D, 0x20), (0x241E, 0x30), (0x241F, 0x99)]⟩ }

/-- RAMW of the register vectors, C = 80 and L = 25. -/
def regState : State := lit [(0x08, 80), (0x0A, 25)] []

/-- Bytes issued by the CPU side, which has the next turn. -/
def issuing (bs : List Byte) (s : State) : State := { s with cpuQueue := bs, schedule := [.cpuSide] }

/-- What a property of the next state is, if there is one. -/
def nextOf {α : Type} (p : State → α) : Host.Outcome State Fault Refusal → Option α
  | .next t => some (p t)
  | _ => none

/-- The outputs other than frames. -/
def plain (s : State) : List Output := s.outputs.filter fun o => match o with | .tick _ _ => false | _ => true

/-- The pixels of the last presented frame, and its diagnostics. -/
def shown (pts : List (Nat × Nat)) (s : State) : Option (List Pixel × List DiagReason) :=
  match s.outputs.getLast? with
  | some (.tick f d) => some (pts.map fun p => f.pixel p.1 p.2, d)
  | _ => none

/-! ## Well-formedness -/

/-- A stream of 2^32 bytes has no length operand: ill-formed (R111). -/
theorem test_wf_refuses_long_stream :
    Instr.wf (.loadCharset .io 0 0 8 8 0 0 (List.replicate (2 ^ 32) 0)) = false := by
  have h : ∀ stream, Instr.wf (.loadCharset .io 0 0 8 8 0 0 stream) = decide (stream.length < 2 ^ 32) := fun _ => rfl
  rw [h, List.length_replicate]
  rfl

theorem test_wf_accepts_short_stream : Instr.wf (.loadCharset .io 0 0 8 8 0 0 [1, 2, 3]) = true := by decide

/-! ## Decoding: a word for each constructor, from R111, and the refusals of R113 -/

theorem test_decode_readByte : decode [0x01, 0x78, 0x56, 0x34, 0x12] = .ok (.readByte 0x12345678, []) := by rfl
/-- X2. -/
theorem test_decode_writeByte : decode [0x02, 0x00, 0x00, 0xAF, 0x00, 0x01] = .ok (.writeByte 0xAF0000 0x01, []) := by
  rfl
theorem test_decode_readWord : decode [0x03, 0x0E, 0x00, 0x00, 0x80, 0x55] = .ok (.readWord 0x8000000E, [0x55]) := by rfl
/-- X3. -/
theorem test_decode_writeWord : decode [0x04, 0x0E, 0, 0, 0, 0xFF, 0x00] = .ok (.writeWord 0x0E 0x00FF, []) := by rfl
/-- X5. -/
theorem test_decode_readLong : decode [0x05, 0x04, 0x00, 0x00, 0x00] = .ok (.readLong 0x04, []) := by rfl
/-- X4. -/
theorem test_decode_writeLong :
    decode [0x06, 0x7C, 0x1F, 0xAF, 0x00, 0xFF, 0xFF, 0xFF, 0x00] = .ok (.writeLong 0xAF1F7C 0x00FFFFFF, []) := by rfl
/-- X6. -/
theorem test_decode_queryRange : decode [0x07, 0x02] = .ok (.queryRange .io, []) := by rfl
/-- X1. -/
theorem test_decode_tick : decode [0x10] = .ok (.tick, []) := by rfl
/-- X14. -/
theorem test_decode_loadCharset :
    decode [0x20, 0x02, 0x00, 0x80, 0x00, 0x00, 0x00, 0x00, 0x00, 0x00, 0x08, 0x08, 0x01, 0x00, 0x07, 0x00, 0x00, 0x00,
      1, 2, 3, 4, 5, 6, 7] = .ok (.loadCharset .io 0x8000 0 8 8 1 0 [1, 2, 3, 4, 5, 6, 7], []) := by rfl
/-- X7. -/
theorem test_decode_attachRegion : decode [0x30, 0x01] = .ok (.attachRegion .ramw, []) := by rfl
/-- X9 to X13, and region code 3 in a LOAD_CHARSET. -/
theorem test_decode_refusals :
    decode [0x00] = .error (.unknownOpcode 0x00) ∧ decode [0x11] = .error (.unknownOpcode 0x11) ∧
      decode [0x07, 0x03] = .error (.unknownRegion 0x07 0x03) ∧
      decode [0x30, 0xFF] = .error (.unknownRegion 0x30 0xFF) ∧
      decode [0x02, 0x00, 0x00, 0xAF] = .error (.tooShort 0x02) ∧
      decode [0x20, 3, 0, 0, 0, 0, 0, 0, 0, 0, 8, 8, 0, 0, 0, 0, 0, 0] = .error (.unknownRegion 0x20 0x03) := by
  refine ⟨rfl, rfl, rfl, rfl, rfl, rfl⟩

/-- Every opcode of the table, with operands of zeros, is what its word decodes to and what the first step runs. -/
theorem test_table_words :
    ([0x01, 0x02, 0x03, 0x04, 0x05, 0x06, 0x07, 0x10, 0x20, 0x30].map fun w => decodeTableWord 8 w) =
      [some (.readByte 0), some (.writeByte 0 0), some (.readWord 0), some (.writeWord 0 0), some (.readLong 0),
        some (.writeLong 0 0), some (.queryRange .vram), some .tick, some (.loadCharset .vram 0 0 0 0 0 0 []),
        some (.attachRegion .vram)] := by
  rfl

theorem test_first_step_runs_attach :
    nextOf (fun t => (t.outputs, attached t.regions .vram)) (step (State.reset.withFetchWord 8 0x30)) =
      some ([.attach .ok], true) := by
  rfl

/-! ## Reads, writes and the range query -/

/-- A3 and A25: MODE = 0x09 reads 0x09 with IO attached, 0 without. -/
theorem test_readByte :
    nextOf plain (exec (.readByte 0xAF0000) (lit [] [(0, 0x09)])) = some [.byte 0x09] ∧
      nextOf plain (exec (.readByte 0xAF0000) dark) = some [.byte 0] := by
  decide

/-- A16: C = 40, column 79, low byte 0x10. -/
theorem test_writeByte_clamps :
    nextOf (fun t => ramField t 0x0E 2) (exec (.writeByte 0x0E 0x10) (lit [(0x08, 40), (0x0E, 79)] [])) = some 16 := by
  decide

/-- A2: an unmapped write changes nothing. -/
theorem test_writeByte_unmapped : nextOf (fun t => t) (exec (.writeByte 0x123456 0x77) dark) = some dark := by
  decide

/-- A7: the second byte of the word is unmapped. -/
theorem test_readWord_at_the_end :
    nextOf plain (exec (.readWord 0xFF) (lit [(0xFE, 0xAA), (0xFF, 0xBB)] [])) = some [.word 0x00BB] := by
  decide

/-- A15: C = 300, column 256, the word 255 leaves 43. -/
theorem test_writeWord_clamps_per_byte :
    nextOf (fun t => ramField t 0x0E 2)
      (exec (.writeWord 0x0E 255) (lit [(0x08, 0x2C), (0x09, 0x01), (0x0F, 0x01)] [])) = some 43 := by
  decide

/-- A13 and A21: 0xFFFF clamps to C − 1, and the blink restarts. -/
theorem test_writeWord_unsigned :
    nextOf (fun t => (ramField t 0x0E 2, t.blink))
      (exec (.writeWord 0x0E 0xFFFF) { regState with blink := ⟨.hidden, 4⟩ }) = some (79, ⟨.visible, 10⟩) := by
  decide

/-- A6. -/
theorem test_readLong_at_the_end :
    nextOf plain (exec (.readLong 0xFE) (lit [(0xFE, 0xAA), (0xFF, 0xBB)] [])) = some [.long 0x0000BBAA] := by
  decide

/-- A8: a long across the top of the address space. -/
theorem test_writeLong_wraps :
    nextOf (fun t => (ramField t 0 4, ramField t 4 4)) (exec (.writeLong 0xFFFFFFFF 0x04030201) regState) =
      some (0x00040302, 0x00040302) := by
  decide

/-- A18, A19 and A20 in one long: LINE_STRIDE then CURSOR_COL, so CURSOR_POS takes the new stride. -/
theorem test_writeLong_stride_then_column :
    nextOf (fun t => ramField t 4 4) (exec (.writeLong 0x0C 0x00050064)
      (lit [(0x01, 0xA0), (0x08, 80), (0x0A, 25), (0x0C, 80), (0x10, 2)] [])) = some 0x0000A0CD := by
  decide

/-- A23 and A24. -/
theorem test_queryRange :
    nextOf plain (exec (.queryRange .ramw) regState) = some [.range 0 0x100 0xFF] ∧
      nextOf plain (exec (.queryRange .vram) dark) = some [.notAttached] := by
  decide

/-! ## TICK -/

/-- The offsets of the table of R172. -/
theorem test_gridOffset :
    [1, 40, 79, 80, 81, 100, 128].map (gridOffset 80) = [312, 160, 0, 0, 0, -80, -192] ∧
      [1, 25, 30, 60, 61, 62, 64].map (gridOffset 60) = [232, 136, 120, 0, 0, -8, -16] := by
  decide

/-- T30 to T37. -/
theorem test_tick_text :
    (nextOf (shown [(3, 136), (0, 136), (1, 137), (2, 137), (0, 135), (8, 136), (639, 335), (0, 336)])
      (exec .tick textState)).join =
      some ([.solid ⟨0xFF, 0xFF, 0xFF⟩, .solid ⟨0, 0, 0x80⟩, .solid ⟨0, 0, 0x80⟩, .solid ⟨0xFF, 0xFF, 0xFF⟩,
        .transparent, .solid ⟨0, 0, 0x80⟩, .solid ⟨0, 0, 0x80⟩, .transparent], []) := by
  decide +kernel

/-- M2, with bank 1 and the record of L1: the second index byte is past the end of VRAM and reads 0. -/
theorem test_tick_bitmap :
    (nextOf (shown [(0, 0), (1, 0), (2, 0), (0, 2)]) (exec .tick bitmapState)).join =
      some ([.solid ⟨0x30, 0x20, 0x10⟩, .solid ⟨0, 0, 0⟩, .transparent, .transparent], []) := by
  decide +kernel

/-- T50 and T56: the cursor rectangle under overlay. -/
theorem test_cursor_rectangle :
    (nextOf (shown [(472, 144), (479, 151), (471, 144), (472, 152)]) (exec .tick cursorState)).join =
      some ([.solid ⟨4, 5, 6⟩, .solid ⟨4, 5, 6⟩, .transparent, .transparent], []) := by
  decide +kernel

/-- K1, B1: the blink runs with nothing attached, and the diagnostic is NO_STORAGE. -/
theorem test_tick_without_storage :
    nextOf (fun t => ((shown [] t).map Prod.snd, t.blink, t.draws)) (exec .tick dark) =
      some (some [.noStorage], ⟨.visible, 9⟩, 1) := by
  decide

/-- R1 to R8. -/
theorem test_recolor :
    let fg := (List.range 16).map fun i => Pixel.solid ⟨BitVec.ofNat 8 i, 0, 0⟩
    let bg := (List.range 16).map fun i => Pixel.solid ⟨0, BitVec.ofNat 8 i, 0⟩
    ([(false, 0xF0), (true, 0xF0), (true, 0xF3), (false, 0x03), (true, 0x00), (false, 0x00), (false, 0x1F),
        (true, 0x10)] : List (Bool × Byte)).map
      (fun p => recolor (fgIdx p.2) (bgIdx p.2) p.1 fg bg (.solid ⟨1, 2, 3⟩)) =
      [(.solid ⟨0, 0, 0⟩, .solid ⟨15, 0, 0⟩), (.transparent, .solid ⟨15, 0, 0⟩), (.solid ⟨0, 3, 0⟩, .solid ⟨15, 0, 0⟩),
        (.solid ⟨0, 3, 0⟩, .solid ⟨1, 2, 3⟩), (.transparent, .solid ⟨1, 2, 3⟩), (.solid ⟨0, 0, 0⟩, .solid ⟨1, 2, 3⟩),
        (.solid ⟨0, 15, 0⟩, .solid ⟨1, 0, 0⟩), (.transparent, .solid ⟨1, 0, 0⟩)] := by
  decide

/-! ## LOAD_CHARSET and ATTACH_REGION -/

/-- A stream whose byte `i` is `i mod 256`. -/
def ramp : List Byte := (List.range 2048).map fun i => BitVec.ofNat 8 i

/-- C3, C4, C5, C6: the failing checks in their order. -/
theorem test_load_checks :
    nextOf plain (exec (.loadCharset .io 0x8000 0 16 8 1 0 []) dark) = some [.load .badGlyphSize] ∧
      nextOf plain (exec (.loadCharset .io 0x8000 0 8 8 1 0 [1, 2, 3, 4, 5, 6, 7]) dark) = some [.load .noTarget] ∧
      nextOf plain (exec (.loadCharset .io 0x8000 0 8 8 1 0 [1, 2, 3, 4, 5, 6, 7]) regState) =
        some [.load .truncated] := by
  decide +kernel

/-- C9: a load over RAMW runs no side effect. -/
theorem test_load_over_ramw :
    nextOf (fun t => (ramField t 0x0E 2, ramField t 4 4, t.blink, t.charsets.length))
      (exec (.loadCharset .ramw 0 0 8 8 1 0 ramp)
        { lit [(0x08, 10), (0x0E, 5)] [] with blink := ⟨.hidden, 3⟩ }) =
      some (0x0F0E, 0x07060504, ⟨.hidden, 3⟩, 1) := by
  decide +kernel

/-- C10 and C11. -/
theorem test_attach :
    nextOf plain (exec (.attachRegion .io) dark) = some [.attach .ok] ∧
      nextOf (fun t => (plain t, t.regions)) (exec (.attachRegion .io) regState) =
        some ([.attach .alreadyAttached], regState.regions) := by
  decide

/-- The syntax of R117: `fgpal 15, FF, FF, FF` is the long of P1. -/
theorem test_fgpal : expand cfg0 (.fgPal 15 0xFF 0xFF 0xFF) = [.writeLong 0xAF1F7C 0x00FFFFFF] := by decide

/-! ## Witnesses: concrete states and operands that meet the hypotheses of each obligation that has any -/

theorem cfg0_valid : configValid cfg0 = true := by decide

theorem lit_attached (ramw io : Memory) : ∀ r, attached (lit ramw io).regions r = true := by
  intro r
  cases r <;> rfl

/-- In a lit state every offset of a region is mapped at its bus address. -/
theorem lit_mapped (ramw io : Memory) (r : Region) (off : Nat) (h : off < regionLen cfg0 r) :
    mapped (lit ramw io) r off (busAddr cfg0 r off) := by
  refine ⟨lit_attached ramw io r, h, ?_⟩
  show (busAddr cfg0 r off).toNat = regionBase cfg0 r + off
  cases r <;> simp [busAddr, regionBase, regionLen, cfg0, Config.default, Layout.default, Layout.window] at * <;> omega

theorem textState_attached : ∀ r, attached textState.regions r = true := by
  intro r
  cases r <;> rfl

theorem textState_draws : drawsText textState fontSet :=
  ⟨textState_attached, by decide, by decide, by decide, by decide, by decide, rfl⟩

theorem cursorState_draws : drawsText cursorState fontSet :=
  ⟨fun r => by cases r <;> rfl, by decide, by decide, by decide, by decide, by decide, rfl⟩

theorem test_witness_PowerOnSatisfiesInvariant : configValid cfg0 = true := cfg0_valid

/-- A state with bytes, a set, an output and an operation to run. -/
def busy : State :=
  issuing [0x02, 0x0E, 0, 0, 0, 0xFF, 0x10] { textState with blink := ⟨.hidden, 3⟩, outputs := [.byte 7] }

theorem test_witness_StepKeepsInvariant : busy.inv = true ∧ ∃ t, step busy = .next t := ⟨by decide +kernel, _, rfl⟩

theorem test_witness_StepRunsScheduledOperation :
    configValid busy.cfg = true ∧ busy.schedule = .cpuSide :: [] ∧
      decode (busy.queue .cpuSide) = .ok (.writeByte 0x0E 0xFF, [0x10]) ∧ issuer (.writeByte 0x0E 0xFF) = .cpuSide :=
  ⟨cfg0_valid, rfl, rfl, rfl⟩

theorem test_witness_IdleTurnChangesNothing :
    (configValid textState.cfg = true ∧ textState.schedule = []) ∧
      configValid (issuing [] textState).cfg = true ∧ (issuing [] textState).schedule = .cpuSide :: [] ∧
        (issuing [] textState).queue .cpuSide = [] :=
  ⟨⟨cfg0_valid, rfl⟩, cfg0_valid, rfl, rfl⟩

theorem test_witness_PlacedWordIsTheNextOperation :
    configValid busy.cfg = true ∧ decodeTableWord 48 0x0100AF000002 = some (.writeByte 0xAF0000 0x01) :=
  ⟨cfg0_valid, rfl⟩

/-- Both sides: a region of length 0 is refused, the default parameters are not. -/
theorem test_witness_InvalidParametersAreRefused :
    step (State.powerOn { cfg0 with layout := { Layout.default with vram := ⟨0xB00000, 0⟩ } }) =
      .refused .invalidConfig ∧ step dark = .next dark :=
  ⟨rfl, rfl⟩

theorem test_witness_StepKeepsParameters : ∃ t, step busy = .next t := ⟨_, rfl⟩

theorem test_witness_StepKeepsEachAgentsOrder :
    busy.schedule = .cpuSide :: [] ∧ ∃ t, step busy = .next t ∧ Agent.host ≠ .cpuSide := ⟨rfl, _, rfl, by decide⟩

theorem test_witness_DecodeInvertsEncode : (Instr.loadCharset .ramw 1 2 8 8 3 4 [5, 6]).wf = true := by decide

theorem test_witness_EncodeInvertsDecode :
    decode [0x04, 0x0E, 0, 0, 0, 0xFF, 0x01, 0x10] = .ok (.writeWord 0x0E 0x01FF, [0x10]) := rfl

/-- A witness for each clause, at the boundaries of the refused opcodes and region codes. -/
theorem test_witness_UnspelledBytesAreRefused :
    (∀ op ∈ ([0x00, 0x08, 0x0F, 0x11, 0x1F, 0x21, 0x2F, 0x31, 0xFF] : List Byte),
      op.toNat ∉ [0x01, 0x02, 0x03, 0x04, 0x05, 0x06, 0x07, 0x10, 0x20, 0x30]) ∧
      (∀ op ∈ ([0x07, 0x20, 0x30] : List Byte), ∀ code ∈ ([0x03, 0xFF] : List Byte),
        op.toNat ∈ [0x07, 0x20, 0x30] ∧ 3 ≤ code.toNat) ∧
      (fixedLength (0x06 : Byte).toNat = some 9 ∧ ((0x06 : Byte) :: List.replicate 7 0).length < 9) ∧
      (([0x20, 0x02, 0, 0, 0, 0, 0, 0, 0, 0, 8, 8, 0, 0] : List Byte).length = 14 ∧
        ([0x20, 0x02, 0, 0, 0, 0, 0, 0, 0, 0, 8, 8, 0, 0] : List Byte).head? = some 0x20#8 ∧
        ([1, 2, 3, 4, 5, 6] : List Byte).length < (le32 7 0 0 0).toNat) ∧
      configValid (issuing [0x11] dark).cfg = true ∧ (issuing [0x11] dark).schedule = .cpuSide :: [] ∧
        (issuing [0x11] dark).queue .cpuSide ≠ [] ∧
        decode ((issuing [0x11] dark).queue .cpuSide) = .error (.unknownOpcode 0x11) :=
  ⟨by decide, by decide, by decide, by decide, cfg0_valid, rfl, by decide, rfl⟩

theorem test_witness_DecodedLengthIsTheFormats :
    decode [0x20, 0, 0, 0, 0, 0, 0, 0, 0, 0, 8, 8, 0, 0, 1, 0, 0, 0, 9, 0x10] =
      .ok (.loadCharset .vram 0 0 8 8 0 0 [9], [0x10]) := rfl

/-- The first and the last offset of each region are mapped, and the address past a region is not. -/
theorem test_witness_ReadByteReturnsTheByte :
    configValid (lit [] []).cfg = true ∧
      (∀ r, mapped (lit [] []) r 0 (busAddr cfg0 r 0) ∧
        mapped (lit [] []) r (regionLen cfg0 r - 1) (busAddr cfg0 r (regionLen cfg0 r - 1))) ∧
      unmapped (lit [] []) 0x100 := by
  refine ⟨cfg0_valid, fun r => ⟨lit_mapped _ _ _ _ (by cases r <;> decide), lit_mapped _ _ _ _ (by cases r <;> decide)⟩, ?_⟩
  rintro r off ⟨-, h1, h2⟩
  cases r <;> simp [regionBase, regionLen, lit, dark, State.powerOn, cfg0, Config.default, Layout.default,
    Layout.window] at h1 h2 <;> omega

theorem test_witness_QueryRangeReturnsTheWindow :
    attached regState.regions .io = true ∧ attached dark.regions .io = false := ⟨rfl, rfl⟩

theorem test_witness_ReadsDoNotSeeHiddenState :
    textState.cfg = busy.cfg ∧ textState.regions = busy.regions ∧ textState.blink ≠ busy.blink :=
  ⟨rfl, rfl, by decide⟩

theorem test_witness_UnmappedAccessesDoNothing : unmapped dark 0xAF0000 := by
  rintro r off ⟨h, -⟩
  cases r <;> cases h

/-- The boundaries of the plain bytes of RAMW, and bytes of IO and VRAM. -/
theorem test_witness_PlainByteWrite :
    configValid regState.cfg = true ∧
      (∀ off ∈ [0x04, 0x0D, 0x12, 0xFF], mapped regState .ramw off (busAddr cfg0 .ramw off) ∧
        (0x04 ≤ off ∧ off < 0x0E ∨ 0x12 ≤ off)) ∧
      mapped regState .io 0 (busAddr cfg0 .io 0) ∧ mapped regState .vram 0x3FFFFF (busAddr cfg0 .vram 0x3FFFFF) := by
  refine ⟨cfg0_valid, fun off h => ?_, lit_mapped _ _ _ _ (by decide), lit_mapped _ _ _ _ (by decide)⟩
  have h' : ∀ o ∈ [0x04, 0x0D, 0x12, 0xFF], o < regionLen cfg0 .ramw ∧ (0x04 ≤ o ∧ o < 0x0E ∨ 0x12 ≤ o) := by decide
  exact ⟨lit_mapped _ _ _ _ (h' off h).1, (h' off h).2⟩

theorem test_witness_ScreenBaseWrite :
    configValid regState.cfg = true ∧ ∀ off ∈ [0x00, 0x03], mapped regState .ramw off (busAddr cfg0 .ramw off) ∧
      off < 0x04 := by
  refine ⟨cfg0_valid, fun off h => ?_⟩
  have h' : ∀ o ∈ [0x00, 0x03], o < regionLen cfg0 .ramw ∧ o < 0x04 := by decide
  exact ⟨lit_mapped _ _ _ _ (h' off h).1, (h' off h).2⟩

theorem test_witness_CursorPosIsRecomputed :
    configValid regState.cfg = true ∧
      (∀ off ∈ [0x00, 0x03, 0x0E, 0x11], mapped regState .ramw off (busAddr cfg0 .ramw off) ∧
        (off < 0x04 ∨ 0x0E ≤ off ∧ off < 0x12)) ∧
      ∀ off ∈ [0x0C, 0x0D], mapped regState .ramw off (busAddr cfg0 .ramw off) ∧ (0x0C ≤ off ∧ off < 0x0E) := by
  refine ⟨cfg0_valid, fun off h => ?_, fun off h => ?_⟩
  · have h' : ∀ o ∈ [0x00, 0x03, 0x0E, 0x11], o < regionLen cfg0 .ramw ∧ (o < 0x04 ∨ 0x0E ≤ o ∧ o < 0x12) := by decide
    exact ⟨lit_mapped _ _ _ _ (h' off h).1, (h' off h).2⟩
  · have h' : ∀ o ∈ [0x0C, 0x0D], o < regionLen cfg0 .ramw ∧ (0x0C ≤ o ∧ o < 0x0E) := by decide
    exact ⟨lit_mapped _ _ _ _ (h' off h).1, (h' off h).2⟩

theorem test_witness_CursorColumnWrite :
    configValid regState.cfg = true ∧ ∀ off ∈ [0x0E, 0x0F], mapped regState .ramw off (busAddr cfg0 .ramw off) ∧
      0x0E ≤ off ∧ off < 0x10 := by
  refine ⟨cfg0_valid, fun off h => ?_⟩
  have h' : ∀ o ∈ [0x0E, 0x0F], o < regionLen cfg0 .ramw ∧ 0x0E ≤ o ∧ o < 0x10 := by decide
  exact ⟨lit_mapped _ _ _ _ (h' off h).1, (h' off h).2⟩

theorem test_witness_CursorRowWrite :
    configValid regState.cfg = true ∧ ∀ off ∈ [0x10, 0x11], mapped regState .ramw off (busAddr cfg0 .ramw off) ∧
      0x10 ≤ off ∧ off < 0x12 := by
  refine ⟨cfg0_valid, fun off h => ?_⟩
  have h' : ∀ o ∈ [0x10, 0x11], o < regionLen cfg0 .ramw ∧ 0x10 ≤ o ∧ o < 0x12 := by decide
  exact ⟨lit_mapped _ _ _ _ (h' off h).1, (h' off h).2⟩

/-- Offsets on both sides of the condition, and the two word addresses. -/
theorem test_witness_CursorWritesRestartTheBlink :
    configValid regState.cfg = true ∧
      ∀ off ∈ [0x0D, 0x0E, 0x10, 0x11, 0x12], mapped regState .ramw off (busAddr cfg0 .ramw off) := by
  refine ⟨cfg0_valid, fun off h => ?_⟩
  have h' : ∀ o ∈ [0x0D, 0x0E, 0x10, 0x11, 0x12], o < regionLen cfg0 .ramw := by decide
  exact lit_mapped _ _ _ _ (h' off h)

/-- Both widths; a stored byte at each boundary of the clause; an untouched byte; and a write that touches none of the
fields with side effects. -/
theorem test_witness_WideWritesStoreTheirBytes :
    configValid regState.cfg = true ∧
      (Instr.writeWord 0x02 (BitVec.ofNat 16 (0x1234 : Long).toNat) = .writeWord 0x02 0x1234) ∧
      (∀ off ∈ [0x00, 0x03, 0x08, 0x0D, 0x12], mapped regState .ramw off (busAddr cfg0 .ramw off) ∧
        (off < 0x04 ∨ 0x08 ≤ off ∧ off < 0x0E ∨ 0x12 ≤ off)) ∧
      (∀ k, k < 4 → ¬ mapped regState .ramw 0x0C (BitVec.ofNat 32 ((0x08 : Addr).toNat + k))) ∧
      ∀ k p, k < 4 → mapped regState .ramw p (BitVec.ofNat 32 ((0x08 : Addr).toNat + k)) →
        0x04 ≤ p ∧ p < 0x0E ∨ 0x12 ≤ p := by
  refine ⟨cfg0_valid, rfl, fun off h => ?_, fun k hk h => ?_, fun k p hk h => ?_⟩
  · have h' : ∀ o ∈ [0x00, 0x03, 0x08, 0x0D, 0x12], o < regionLen cfg0 .ramw ∧
        (o < 0x04 ∨ 0x08 ≤ o ∧ o < 0x0E ∨ 0x12 ≤ o) := by decide
    exact ⟨lit_mapped _ _ _ _ (h' off h).1, (h' off h).2⟩
  · have e : (BitVec.ofNat 32 ((0x08 : Addr).toNat + k)).toNat = 0 + 0x0C := h.2.2
    simp at e
    omega
  · have e : (BitVec.ofNat 32 ((0x08 : Addr).toNat + k)).toNat = 0 + p := h.2.2
    simp at e
    omega

/-- Both fields, and old high bytes (0) that are at most the new ones. -/
theorem test_witness_CursorWordRoundTrip :
    configValid regState.cfg = true ∧ mapped regState .ramw 0x0E (busAddr cfg0 .ramw 0x0E) ∧
      mapped regState .ramw 0x10 (busAddr cfg0 .ramw 0x10) ∧
      ramField regState 0x0E 2 / 256 ≤ (0x00C8 : Half).toNat / 256 ∧
      ramField regState 0x10 2 / 256 ≤ (0xFFFF : Half).toNat / 256 :=
  ⟨cfg0_valid, lit_mapped _ _ _ _ (by decide), lit_mapped _ _ _ _ (by decide), by decide, by decide⟩

/-- Countdowns of 1 and of 2. -/
theorem test_witness_TickPresentsAndStepsTheBlink :
    ({ dark with blink := ⟨.hidden, 1⟩ } : State).blink.countdown = 1 ∧
      2 ≤ ({ dark with blink := ⟨.visible, 2⟩ } : State).blink.countdown := by decide

theorem test_witness_BlinkPeriodOverTicks :
    1 ≤ textState.cfg.blinkRate ∧ textState.blink = ⟨.visible, textState.cfg.blinkRate⟩ := by decide

/-- A state for each clause, with the counts at their bounds. -/
theorem test_witness_DiagnosticsOfTick :
    (∃ r, attached dark.regions r = false) ∧
      ((∀ r, attached regState.regions r = true) ∧ (regState.byteAt .io 0).getLsbD 0 = false) ∧
      (∀ m ∈ ([[], [(0x08, 80)], [(0x08, 129), (0x0A, 25)], [(0x08, 80), (0x0A, 65)]] : List Memory),
        (∀ r, attached (lit m [(0, 1)]).regions r = true) ∧ ((lit m [(0, 1)]).byteAt .io 0).getLsbD 0 = true ∧
          ¬ (1 ≤ ramField (lit m [(0, 1)]) 0x08 2 ∧ ramField (lit m [(0, 1)]) 0x08 2 ≤ 128 ∧
            1 ≤ ramField (lit m [(0, 1)]) 0x0A 2 ∧ ramField (lit m [(0, 1)]) 0x0A 2 ≤ 64)) ∧
      (∀ m ∈ ([[(0x08, 1), (0x0A, 1)], [(0x08, 128), (0x0A, 64)]] : List Memory),
        (∀ r, attached (lit m [(0, 1)]).regions r = true) ∧ ((lit m [(0, 1)]).byteAt .io 0).getLsbD 0 = true ∧
          (1 ≤ ramField (lit m [(0, 1)]) 0x08 2 ∧ ramField (lit m [(0, 1)]) 0x08 2 ≤ 128 ∧
            1 ≤ ramField (lit m [(0, 1)]) 0x0A 2 ∧ ramField (lit m [(0, 1)]) 0x0A 2 ≤ 64) ∧
          (lit m [(0, 1)]).charsets = []) ∧
      textState.charsets ≠ [] := by
  refine ⟨⟨.io, rfl⟩, ⟨lit_attached _ _, by decide⟩, fun m hm => ⟨lit_attached _ _, ?_⟩, fun m hm => ⟨lit_attached _ _, ?_⟩,
    by simp [textState]⟩
  · revert m
    decide
  · revert m
    decide

theorem test_witness_CleanFrameIsDetermined : (compose (snapshotOf textState) textState.blink 0).2 = [] := by decide

theorem test_witness_DiagnosticFrameIsADraw :
    ∃ t f, exec .tick dark = .next t ∧ t.outputs = dark.outputs ++ [.tick f [.noStorage]] ∧
      [DiagReason.noStorage] ≠ [] ∧ 639 < 640 ∧ 479 < 480 := ⟨_, _, rfl, rfl, by decide, by decide, by decide⟩

theorem test_witness_NoLayerLeavesTransparent :
    (∀ r, attached (lit [] [(0, 0xF6)]).regions r = true) ∧ ((lit [] [(0, 0xF6)]).byteAt .io 0).getLsbD 3 = false ∧
      ((lit [] [(0, 0xF6)]).byteAt .io 0).getLsbD 0 = false := ⟨lit_attached _ _, by decide, by decide⟩

/-- Pixels inside and outside the bitmap, and a disabled one. -/
theorem test_witness_BitmapLayerPixels :
    (∀ r, attached bitmapState.regions r = true) ∧ (bitmapState.byteAt .io 0).getLsbD 3 = true ∧
      (bitmapState.byteAt .io 0).getLsbD 0 = false ∧ (bitmapState.byteAt .io 0x100).getLsbD 0 = true ∧
      (∀ x < 2, ∀ y < 2, x < regionRead bitmapState.cfg bitmapState.regions .io 0x105 2 ∧
        y < regionRead bitmapState.cfg bitmapState.regions .io 0x107 2) ∧
      ¬ (2 < regionRead bitmapState.cfg bitmapState.regions .io 0x105 2 ∧
        0 < regionRead bitmapState.cfg bitmapState.regions .io 0x107 2) ∧
      (∀ r, attached (lit [] [(0, 8), (0x100, 0x0E)]).regions r = true) ∧
      ((lit [] [(0, 8), (0x100, 0x0E)]).byteAt .io 0).getLsbD 3 = true ∧
      ((lit [] [(0, 8), (0x100, 0x0E)]).byteAt .io 0).getLsbD 0 = false ∧
      ((lit [] [(0, 8), (0x100, 0x0E)]).byteAt .io 0x100).getLsbD 0 = false := by
  refine ⟨fun r => by cases r <;> rfl, by decide, by decide, by decide, by decide, by decide, lit_attached _ _, by decide,
    by decide, by decide⟩

/-- The first and the last cell of E1, at the first and the last glyph pixel. -/
theorem test_witness_TextCellPixels :
    drawsText textState fontSet ∧ ¬ cursorShown textState ∧
      (0 < ramField textState 0x0A 2 ∧ 0 < ramField textState 0x08 2 ∧
        ((0 : Nat) : Int) = ((0 : Nat) : Int) * 8 + Int.tdiv (80 - (ramField textState 0x08 2 : Int)) 2 * 8 + ((0 : Nat) : Int) ∧
        ((136 : Nat) : Int) = ((0 : Nat) : Int) * 8 + Int.tdiv (60 - (ramField textState 0x0A 2 : Int)) 2 * 8 + ((0 : Nat) : Int)) ∧
      24 < ramField textState 0x0A 2 ∧ 79 < ramField textState 0x08 2 ∧
        ((639 : Nat) : Int) = ((79 : Nat) : Int) * 8 + Int.tdiv (80 - (ramField textState 0x08 2 : Int)) 2 * 8 + ((7 : Nat) : Int) ∧
        ((335 : Nat) : Int) = ((24 : Nat) : Int) * 8 + Int.tdiv (60 - (ramField textState 0x0A 2 : Int)) 2 * 8 + ((7 : Nat) : Int) := by
  refine ⟨textState_draws, fun h => absurd h.1 (by decide), by decide, by decide, by decide, by decide, by decide⟩

theorem test_witness_TextLayerOutsideTheGrid :
    drawsText textState fontSet ∧ ¬ cursorShown textState ∧ ((135 : Nat) : Int) < yOffOf textState ∧
      yOffOf textState + 8 * (ramField textState 0x0A 2 : Int) ≤ ((336 : Nat) : Int) :=
  ⟨textState_draws, fun h => absurd h.1 (by decide), by decide, by decide⟩

theorem test_witness_CursorRectangleIsDrawn :
    drawsText cursorState fontSet ∧ cursorShown cursorState ∧ inCursorRect cursorState 472 144 ∧
      inCursorRect cursorState 479 151 ∧ ¬ inCursorRect cursorState 480 151 := by
  refine ⟨cursorState_draws, ⟨by decide, by decide⟩, ?_, ?_, ?_⟩ <;> unfold inCursorRect <;> decide

/-- A state for each disjunct. -/
theorem test_witness_BlinkShowsOnlyThroughTheCursor :
    ((snapshotOf textState).byte .io cursorCtrl).getLsbD 0 = false ∧
      ((snapshotOf bitmapState).byte .io modeReg).getLsbD 0 = false ∧
      (⟨.visible, 3⟩ : Blink).phase = (⟨.visible, 9⟩ : Blink).phase := by decide

/-- MODE 0xF9 and 0x09 with the text layer; 0xFE and 0x08, which differ in bit 1, without it. -/
theorem test_witness_ModeBitsWithoutEffect :
    configValid textState.cfg = true ∧ mapped regState .io 0 (busAddr cfg0 .io 0) ∧
      ((0xF9 : Byte).getLsbD 0 = (0x09 : Byte).getLsbD 0 ∧ (0xF9 : Byte).getLsbD 3 = (0x09 : Byte).getLsbD 3 ∧
        (0xF9 : Byte).getLsbD 1 = (0x09 : Byte).getLsbD 1) ∧
      (0xFE : Byte).getLsbD 0 = (0x08 : Byte).getLsbD 0 ∧ (0xFE : Byte).getLsbD 3 = (0x08 : Byte).getLsbD 3 ∧
        (0xFE : Byte).getLsbD 0 = false :=
  ⟨cfg0_valid, lit_mapped _ _ _ _ (by decide), by decide, by decide, by decide, by decide⟩

theorem test_witness_ControlBitsWithoutEffect :
    configValid regState.cfg = true ∧ mapped regState .io 0x100 (busAddr cfg0 .io 0x100) ∧
      mapped regState .io 0x10 (busAddr cfg0 .io 0x10) ∧ (0xFF : Byte).toNat % 16 = (0x0F : Byte).toNat % 16 ∧
      (0xFE : Byte).toNat % 2 = (0x00 : Byte).toNat % 2 :=
  ⟨cfg0_valid, lit_mapped _ _ _ _ (by decide), lit_mapped _ _ _ _ (by decide), by decide, by decide⟩

/-- The boundaries of the ranges. -/
theorem test_witness_UnreadBytesDoNotShow :
    configValid regState.cfg = true ∧
      (∀ off ∈ [0x00, 0x07, 0x12, 0xFF], mapped regState .ramw off (busAddr cfg0 .ramw off) ∧ unreadByte .ramw off) ∧
      ∀ off ∈ [0x0001, 0x000F, 0x0011, 0x00FF, 0x0109, 0x1F3F, 0x1F43, 0x1FBF, 0x1FC0, 0x1FFF, 0x2003, 0x3FFF, 0x4000,
        0x9FFF], mapped regState .io off (busAddr cfg0 .io off) ∧ unreadByte .io off := by
  refine ⟨cfg0_valid, fun off h => ?_, fun off h => ?_⟩
  · have h' : ∀ o ∈ [0x00, 0x07, 0x12, 0xFF], o < regionLen cfg0 .ramw ∧ (o < 0x08 ∨ 0x12 ≤ o) := by decide
    exact ⟨lit_mapped _ _ _ _ (h' off h).1, (h' off h).2⟩
  · have h' : off < regionLen cfg0 .io := by
      have : ∀ o ∈ [0x0001, 0x000F, 0x0011, 0x00FF, 0x0109, 0x1F3F, 0x1F43, 0x1FBF, 0x1FC0, 0x1FFF, 0x2003, 0x3FFF,
        0x4000, 0x9FFF], o < regionLen cfg0 .io := by decide
      exact this off h
    refine ⟨lit_mapped _ _ _ _ h', ?_⟩
    simp only [List.mem_cons, List.not_mem_nil, or_false] at h
    unfold unreadByte
    omega

theorem test_witness_RepeatedTickPresentsTheSameFrame :
    ∃ t f, exec .tick textState = .next t ∧ t.outputs = textState.outputs ++ [.tick f []] ∧
      t.blink.phase = textState.blink.phase := by
  have h : (compose (snapshotOf textState) textState.blink textState.draws).2 = [] := by decide
  have e : ∀ (c : Frame × List DiagReason), c.2 = [] → Output.tick c.1 c.2 = .tick c.1 [] := fun c hc => by rw [hc]
  exact ⟨_, _, rfl, congrArg (fun o => textState.outputs ++ [o]) (e _ h), rfl⟩

theorem test_witness_OnlySlotZeroIsDrawn :
    textState.charsets.head? = some fontSet ∧ ∃ t, exec (.loadCharset .io 0 0 8 8 2 0 ramp) textState = .next t :=
  ⟨rfl, by
    simp only [exec, execLoadCharset]
    split <;> exact ⟨_, rfl⟩⟩

/-- A whole load, and one at the end of IO whose last bytes are dropped. -/
theorem test_witness_SuccessfulLoad :
    attached regState.regions .io = true ∧ (0 : BitVec 32).toNat + 2048 ≤ ramp.length ∧
      (0xFFF8 : BitVec 32).toNat + 7 < regionLen regState.cfg .io ∧
      ¬ (0xFFF8 : BitVec 32).toNat + 8 < regionLen regState.cfg .io := by
  refine ⟨rfl, ?_, by decide, by decide⟩
  simp [ramp]

/-- C3, C4 and C6. -/
theorem test_witness_FailedLoadChangesNothing :
    ¬ ((16 : Byte).toNat = 8 ∧ (8 : Byte).toNat = 8) ∧ ((8 : Byte).toNat = 8 ∧ attached dark.regions .io = false) ∧
      attached regState.regions .io = true ∧ ([1, 2, 3] : List Byte).length < (0 : BitVec 32).toNat + 2048 := by
  decide

theorem test_witness_AttachRegionGivesTheImage :
    attached dark.regions .ramw = false ∧ attached regState.regions .ramw = true := ⟨rfl, rfl⟩

theorem test_witness_NoOperationDetaches :
    attached textState.regions .io = true ∧ (∃ t, exec .tick textState = .next t) ∧
      ∃ t, Host.Core.run Sys2Proof.core 1 busy = .next t := ⟨rfl, ⟨_, rfl⟩, _, rfl⟩

theorem test_witness_CanonicalMemoryIsUnique :
    Memory.wf gridBytes = true ∧ Memory.wf (Memory.write gridBytes 0x09 0) = true ∧
      ∀ o, Memory.read gridBytes o = Memory.read (Memory.write gridBytes 0x09 0) o :=
  ⟨by decide, by decide, fun _ => rfl⟩

theorem test_witness_PaletteSequencesSetTheirEntry :
    configValid regState.cfg = true ∧ attached regState.regions .io = true := ⟨cfg0_valid, rfl⟩

end Sys2Proof.Tests
end

/-! PROOFS. The parameters (00_scope.md R9, R10) and the invariant that every step keeps (10_state.md R38). -/

namespace Sys2Proof.Machine

/-! ## Parameters -/

/-- Every operation answers a next state (60_exceptions.md R280, R294), so no operation refuses. -/
theorem exec_eq_next (i : Instr) (s : State) : ∃ t, exec i s = .next t := by
  cases i with
  | queryRange r => simp only [exec, execQueryRange]; split <;> exact ⟨_, rfl⟩
  | loadCharset => simp only [exec, execLoadCharset]; split <;> exact ⟨_, rfl⟩
  | attachRegion r => simp only [exec, execAttachRegion]; split <;> exact ⟨_, rfl⟩
  | _ => exact ⟨_, rfl⟩

/-- The schedule never offers the refusal of the parameters: what it refuses are an agent's bytes. -/
theorem takeNext_ne_invalidConfig (s : State) : takeNext s ≠ .refuse .invalidConfig := by
  unfold takeNext
  split
  · simp
  · split
    · simp
    · split
      · simp
      · split <;> simp

theorem step_of_not_configValid (s : State) (h : configValid s.cfg ≠ true) : step s = .refused .invalidConfig := by
  unfold step
  rw [if_neg h]

/-- A step refuses the parameters by name exactly when they are not the admitted ones. -/
theorem step_refuses_parameters_iff (s : State) :
    step s = .refused .invalidConfig ↔ ¬ configValid s.cfg = true := by
  refine ⟨fun h hv => ?_, step_of_not_configValid s⟩
  unfold step at h
  rw [if_pos hv] at h
  cases hn : takeNext s with
  | nothing t => simp [hn] at h
  | op i t =>
    obtain ⟨u, hu⟩ := exec_eq_next i t
    simp [hn, hu] at h
  | refuse r =>
    simp only [hn, Host.Outcome.refused.injEq] at h
    exact takeNext_ne_invalidConfig s (h ▸ hn)

theorem Memory.fits_iff (m : Memory) (len : Nat) : Memory.fits m len = true ↔ ∀ c ∈ m, c.1 < len := by
  simp [Memory.fits]

/-- The windows of two regions share no address (R10). -/
theorem regionsApart_iff (cfg : Config) (r q : Region) :
    windowsApart (Layout.window cfg.layout r) (Layout.window cfg.layout q) = true ↔
      regionBase cfg r + regionLen cfg r ≤ regionBase cfg q ∨ regionBase cfg q + regionLen cfg q ≤ regionBase cfg r :=
  windowsApart_iff _ _

theorem windowsApart_comm (v w : Window) : windowsApart v w = windowsApart w v := Bool.or_comm _ _

/-- The three tests for overlap cover every pair of distinct regions. -/
theorem windowsApart_pairs_iff (l : Layout) :
    (∀ r q, r ≠ q → windowsApart (Layout.window l r) (Layout.window l q) = true) ↔
      windowsApart l.vram l.ramw = true ∧ windowsApart l.vram l.io = true ∧ windowsApart l.ramw l.io = true := by
  constructor
  · intro h
    exact ⟨h .vram .ramw (by decide), h .vram .io (by decide), h .ramw .io (by decide)⟩
  · rintro ⟨hvr, hvi, hri⟩ r q hne
    cases r <;> cases q
    case vram.vram | ramw.ramw | io.io => exact absurd rfl hne
    case vram.ramw => exact hvr
    case vram.io => exact hvi
    case ramw.io => exact hri
    case ramw.vram => exact (windowsApart_comm _ _).trans hvr
    case io.vram => exact (windowsApart_comm _ _).trans hvi
    case io.ramw => exact (windowsApart_comm _ _).trans hri

/-- The constraints of R10 written out over regions, offsets and addresses. -/
theorem configValid_iff_constraints (cfg : Config) :
    configValid cfg = true ↔ 1 ≤ cfg.blinkRate ∧
      (∀ r, 1 ≤ regionLen cfg r ∧ regionBase cfg r + regionLen cfg r ≤ 2 ^ 32 ∧
        Memory.wf (initImage cfg r) = true ∧ ∀ c ∈ initImage cfg r, c.1 < regionLen cfg r) ∧
      (∀ r q, r ≠ q → regionBase cfg r + regionLen cfg r ≤ regionBase cfg q ∨
        regionBase cfg q + regionLen cfg q ≤ regionBase cfg r) ∧
      0x12 ≤ regionLen cfg .ramw ∧ 0x10000 ≤ regionLen cfg .io := by
  simp only [configValid_iff, regionParamsValid_iff, Memory.fits_iff, ← regionsApart_iff, windowsApart_pairs_iff,
    and_assoc]

/-- Settles O7: a step tests the parameters before anything else, and no other refusal bears that name. -/
theorem invalidParametersAreRefused : Obligations.InvalidParametersAreRefused := by
  intro s
  rw [step_refuses_parameters_iff, configValid_iff_constraints]

/-- Settles O8: neither a turn that passes nor an operation writes the parameters. -/
theorem stepKeepsParameters : Obligations.StepKeepsParameters := by
  intro s t h
  obtain ⟨-, ⟨-, rfl⟩ | ⟨a, later, -, ⟨-, rfl⟩ | ⟨i, rest, -, -, hx⟩⟩⟩ := step_cases s t h
  · rfl
  · rfl
  · simpa using (exec_frame i _ t hx).1

/-! ## The invariant under each update of the state -/

@[simp] theorem State.withDraws_inv (s : State) (n : Nat) : (s.withDraws n).inv = s.inv := rfl

@[simp] theorem State.withSchedule_inv (s : State) (l : List Agent) : (s.withSchedule l).inv = s.inv := rfl

@[simp] theorem State.withQueue_inv (s : State) (a : Agent) (q : List Byte) : (s.withQueue a q).inv = s.inv := by
  cases a <;> rfl

theorem State.inv_emit {s : State} (h : s.inv = true) {o : Output} (ho : outputOk o = true) :
    (s.emit o).inv = true := by
  rw [State.inv_iff] at *
  obtain ⟨hcfg, hreg, hsets, hblink, hout⟩ := h
  refine ⟨hcfg, hreg, hsets, hblink, fun p hp => ?_⟩
  rcases List.mem_append.mp hp with hp | hp
  · exact hout p hp
  · rwa [List.mem_singleton.mp hp]

theorem State.inv_withRegions {s : State} (h : s.inv = true) {g : Regions} (hg : ∀ r, regionOk s.cfg g r = true) :
    (s.withRegions g).inv = true := by
  rw [State.inv_iff] at *
  obtain ⟨hcfg, -, hrest⟩ := h
  exact ⟨hcfg, hg, hrest⟩

theorem State.inv_addCharset {s : State} (h : s.inv = true) {cs : CharSet} (hcs : charsetOk cs = true) :
    (s.withCharsets (s.charsets ++ [cs])).inv = true := by
  rw [State.inv_iff] at *
  obtain ⟨hcfg, hreg, hsets, hrest⟩ := h
  refine ⟨hcfg, hreg, fun c hc => ?_, hrest⟩
  rcases List.mem_append.mp hc with hc | hc
  · exact hsets c hc
  · rwa [List.mem_singleton.mp hc]

theorem State.inv_withBlink {s : State} (h : s.inv = true) {b : Blink}
    (hb : 1 ≤ b.countdown ∧ b.countdown ≤ s.cfg.blinkRate) : (s.withBlink b).inv = true := by
  rw [State.inv_iff] at *
  obtain ⟨hcfg, hreg, hsets, -, hout⟩ := h
  exact ⟨hcfg, hreg, hsets, hb, hout⟩

/-! ## What the invariant gives -/

theorem State.inv_configValid {s : State} (h : s.inv = true) : configValid s.cfg = true := by
  obtain ⟨hcfg, -⟩ := (State.inv_iff s).mp h
  exact hcfg

theorem State.inv_regionOk {s : State} (h : s.inv = true) (r : Region) : regionOk s.cfg s.regions r = true := by
  obtain ⟨-, hreg, -⟩ := (State.inv_iff s).mp h
  exact hreg r

theorem State.inv_countdown {s : State} (h : s.inv = true) :
    1 ≤ s.blink.countdown ∧ s.blink.countdown ≤ s.cfg.blinkRate := by
  obtain ⟨-, -, -, hblink, -⟩ := (State.inv_iff s).mp h
  exact hblink

theorem State.inv_blinkRate_pos {s : State} (h : s.inv = true) : 1 ≤ s.cfg.blinkRate :=
  ((configValid_iff _).mp (State.inv_configValid h)).1

/-- The initial image of a region is in canonical form and inside the region (R10). -/
theorem initImage_ok (cfg : Config) (h : configValid cfg = true) (r : Region) :
    Memory.wf (initImage cfg r) = true ∧ Memory.fits (initImage cfg r) (regionLen cfg r) = true := by
  obtain ⟨-, hp, -⟩ := (configValid_iff cfg).mp h
  exact ((regionParamsValid_iff cfg r).mp (hp r)).2.2

/-! ## CPU-side writes keep the invariant -/

theorem movementEvent_keeps_inv {s : State} (h : s.inv = true) : (movementEvent s).inv = true :=
  State.inv_withBlink h ⟨State.inv_blinkRate_pos h, le_rfl⟩

/-- ClampCol, ClampRow and RecomputePos are each one field write of the core. -/
theorem setRamField_keeps_inv {s : State} (h : s.inv = true) (off n v : Nat) : (setRamField s off n v).inv = true :=
  State.inv_withRegions h fun r =>
    regionOk_write _ _ r n off v _ (State.inv_regionOk h .ramw) (State.inv_regionOk h r)

theorem sideEffects_keeps_inv {s : State} (h : s.inv = true) (r : Region) (off : Nat) :
    (sideEffects r off s).inv = true := by
  have hpos : ∀ {t : State}, t.inv = true → (recomputePos t).inv = true := fun ht => setRamField_keeps_inv ht ..
  unfold sideEffects
  split
  · exact h
  · split
    · exact movementEvent_keeps_inv (hpos (setRamField_keeps_inv h ..))
    · split
      · exact movementEvent_keeps_inv (hpos (setRamField_keeps_inv h ..))
      · split
        · exact hpos h
        · exact h

theorem writeByteBus_keeps_inv {s : State} (h : s.inv = true) (a : Addr) (d : Byte) :
    (writeByteBus a d s).inv = true := by
  rcases writeByteBus_cases s a d with ⟨-, hw⟩ | ⟨r, off, -, -, -, hw⟩
  · rwa [hw]
  · rw [hw]
    refine sideEffects_keeps_inv (State.inv_withRegions h fun q => ?_) r off
    exact regionOk_writeByte _ _ r q off d (State.inv_regionOk h r) (State.inv_regionOk h q)

/-! ## The host's operations keep the invariant -/

/-- BlinkStep leaves the countdown in [1, BLINK_RATE]: it decrements above 1 and reloads at 1 (R38, R262). -/
theorem blinkStep_countdown (cfg : Config) (b : Blink) (hr : 1 ≤ cfg.blinkRate) (hb : b.countdown ≤ cfg.blinkRate) :
    1 ≤ (blinkStep cfg b).countdown ∧ (blinkStep cfg b).countdown ≤ cfg.blinkRate := by
  unfold blinkStep
  by_cases hc : b.countdown - 1 = 0
  · simpa [hc] using hr
  · simp only [hc, if_false]
    omega

theorem frameOk_ofRaster (F : Raster) : frameOk (Frame.ofRaster F) = true := by
  simpa [frameOk] using Frame.ofRaster_shape F

/-- The text layer gives at most one reason: the grid is tested before the character set (R170). -/
theorem textLayer_diag_length (sn : Snapshot) (b : Blink) (overlay : Bool) (draw : Nat) (F : Raster) :
    (textLayer sn b overlay draw F).2.length ≤ 1 := by
  unfold textLayer
  simp only
  split
  · split <;> simp
  · simp

/-- A compose gives at most one reason: with no storage no layer runs (R155, R281). -/
theorem composeRaster_diag_length (sn : Snapshot) (b : Blink) (draw : Nat) :
    (composeRaster sn b draw).2.length ≤ 1 := by
  unfold composeRaster
  simp only
  split
  · split
    · exact textLayer_diag_length ..
    · simp
  · simp

theorem outputOk_compose (sn : Snapshot) (b : Blink) (draw : Nat) :
    outputOk (.tick (compose sn b draw).1 (compose sn b draw).2) = true := by
  have hf : frameOk (compose sn b draw).1 = true := frameOk_ofRaster _
  have hd : (compose sn b draw).2.length ≤ 1 := composeRaster_diag_length sn b draw
  simp [outputOk, hf, hd]

theorem tick_keeps_inv {s t : State} (h : s.inv = true) (hx : exec .tick s = .next t) : t.inv = true := by
  rw [execTick_eq] at hx
  cases hx
  have hpresent := State.inv_emit h (outputOk_compose (snapshotOf s) s.blink s.draws)
  obtain ⟨-, hle⟩ := State.inv_countdown h
  refine State.inv_withBlink ?_ (blinkStep_countdown s.cfg s.blink (State.inv_blinkRate_pos h) hle)
  rwa [State.withDraws_inv]

/-- A loaded set has a glyph for every code (R245). -/
theorem charsetOk_glyphsOf (id tag : Byte) (soff : Nat) (stream : List Byte) :
    charsetOk ⟨id, tag, glyphsOf soff stream⟩ = true := by
  simp [charsetOk, glyphsOf]

theorem loadCharset_keeps_inv {s t : State} (h : s.inv = true) (r : Region) (toff soff : BitVec 32)
    (gw gh id tag : Byte) (stream : List Byte)
    (hx : execLoadCharset r toff soff gw gh id tag stream s = .next t) : t.inv = true := by
  unfold execLoadCharset at hx
  split at hx
  · cases hx
    have hstore := State.inv_withRegions h fun q => regionOk_writeBytes s.cfg r q (fontSlice soff.toNat stream)
      toff.toNat s.regions (State.inv_regionOk h r) (State.inv_regionOk h q)
    exact State.inv_emit (State.inv_addCharset hstore (charsetOk_glyphsOf ..)) rfl
  · cases hx
    exact State.inv_emit h rfl

theorem attachRegion_keeps_inv {s t : State} (h : s.inv = true) (r : Region)
    (hx : execAttachRegion r s = .next t) : t.inv = true := by
  unfold execAttachRegion at hx
  split at hx
  · cases hx
    exact State.inv_emit h rfl
  · cases hx
    obtain ⟨hwf, hfits⟩ := initImage_ok s.cfg (State.inv_configValid h) r
    have hattach := State.inv_withRegions h fun q => regionOk_set _ _ r q _ hwf hfits (State.inv_regionOk h q)
    exact State.inv_emit hattach rfl

/-! ## Every operation and every step -/

theorem exec_keeps_inv (i : Instr) {s t : State} (h : s.inv = true) (hx : exec i s = .next t) : t.inv = true := by
  cases i with
  | readByte a => cases hx; exact State.inv_emit h rfl
  | readWord a => cases hx; exact State.inv_emit h rfl
  | readLong a => cases hx; exact State.inv_emit h rfl
  | writeByte a d => cases hx; exact writeByteBus_keeps_inv h a d
  | writeWord a d => cases hx; exact writeByteBus_keeps_inv (writeByteBus_keeps_inv h ..) ..
  | writeLong a d =>
    cases hx
    have hlow := writeByteBus_keeps_inv (writeByteBus_keeps_inv h a (byteOf d 0)) (a + 1) (byteOf d 1)
    exact writeByteBus_keeps_inv (writeByteBus_keeps_inv hlow ..) ..
  | queryRange r =>
    simp only [exec, execQueryRange] at hx
    split at hx <;> cases hx <;> exact State.inv_emit h rfl
  | tick => exact tick_keeps_inv h hx
  | loadCharset r toff soff gw gh id tag stream => exact loadCharset_keeps_inv h r toff soff gw gh id tag stream hx
  | attachRegion r => exact attachRegion_keeps_inv h r hx

/-- Settles O3: taking an operation from its queue touches no part of the invariant, and every operation keeps it. -/
theorem stepKeepsInvariant : Obligations.StepKeepsInvariant := by
  intro s t h hstep
  obtain ⟨-, ⟨-, rfl⟩ | ⟨a, later, -, ⟨-, rfl⟩ | ⟨i, rest, -, -, hx⟩⟩⟩ := step_cases s t hstep
  · exact h
  · rwa [State.withSchedule_inv]
  · exact exec_keeps_inv i (by rwa [State.withQueue_inv, State.withSchedule_inv]) hx

end Sys2Proof.Machine

/-! PROOFS. The state (10_state.md): what the region bytes are and what power-on gives (R20, R36), what a read sees and a
plain store changes (R24, R37), and what of the state a frame shows (R26, R30, R32). -/

namespace Sys2Proof.Machine

/-! ## Canonical memories -/

/-- An offset below every listed one is not listed. -/
theorem Memory.read_of_lt (m : Memory) (o : Nat) (h : ∀ c ∈ m, o < c.1) : Memory.read m o = Memory.unlisted := by
  induction m with
  | nil => rfl
  | cons c m ih =>
    obtain ⟨hc, hm⟩ := List.forall_mem_cons.mp h
    rw [Memory.read_cons, if_neg (Nat.ne_of_gt hc), ih hm]

@[simp] theorem Memory.read_cons_self (a : Nat) (v : Byte) (m : Memory) : Memory.read ((a, v) :: m) a = v := by
  simp [Memory.read_cons]

/-- Of two memories that read alike, the second lists nothing before the first one's head: its own head does not read as
unlisted, and in the first memory every offset before the head does. -/
theorem Memory.head_le_of_read_eq {a b : Nat} {v w : Byte} {m n : Memory} (hm : ∀ c ∈ m, a < c.1)
    (hw : w ≠ Memory.unlisted) (h : ∀ o, Memory.read ((a, v) :: m) o = Memory.read ((b, w) :: n) o) : a ≤ b := by
  by_contra hlt
  have hb := h b
  have hbelow : ∀ c ∈ m, b < c.1 := fun c hc => by have := hm c hc; omega
  rw [Memory.read_cons, if_neg (by omega), Memory.read_of_lt m b hbelow, Memory.read_cons_self] at hb
  exact hw hb.symm

/-- Settles O53, by induction on one list: the heads agree because neither lists anything before the other, and the tails
read alike because both are unlisted up to the head's offset. -/
theorem canonicalMemoryIsUnique : Obligations.CanonicalMemoryIsUnique := by
  intro m
  induction m with
  | nil =>
    rintro (- | ⟨⟨b, w⟩, n⟩) - hn h
    · rfl
    · obtain ⟨hw, -⟩ := (Memory.wf_cons b w n).mp hn
      exact absurd (by simpa using (h b).symm) hw
  | cons c m ih =>
    obtain ⟨a, v⟩ := c
    rintro (- | ⟨⟨b, w⟩, n⟩) hm hn h
    · obtain ⟨hv, -⟩ := (Memory.wf_cons a v m).mp hm
      exact absurd (by simpa using h a) hv
    · obtain ⟨hv, hma, hmwf⟩ := (Memory.wf_cons a v m).mp hm
      obtain ⟨hw, hnb, hnwf⟩ := (Memory.wf_cons b w n).mp hn
      obtain rfl : a = b :=
        le_antisymm (Memory.head_le_of_read_eq hma hw h) (Memory.head_le_of_read_eq hnb hv fun o => (h o).symm)
      obtain rfl : v = w := by simpa using h a
      have htail : ∀ o, Memory.read m o = Memory.read n o := by
        intro o
        by_cases ho : a = o
        · subst ho
          rw [Memory.read_of_lt m a hma, Memory.read_of_lt n a hnb]
        · simpa [Memory.read_cons, ho] using h o
      rw [ih n hmwf hnwf htail]

/-! ## Power-on -/

/-- The default parameters are admitted (R9, R10, R21). -/
theorem configValid_default : configValid Config.default = true := by decide

/-- Power-on meets the invariant: nothing is attached, loaded or presented, and the countdown is full. -/
theorem State.inv_powerOn {cfg : Config} (h : configValid cfg = true) : (State.powerOn cfg).inv = true := by
  obtain ⟨hrate, -⟩ := (configValid_iff cfg).mp h
  refine (State.inv_iff _).mpr ⟨h, fun r => ?_, by simp [State.powerOn], ⟨hrate, le_rfl⟩, by simp [State.powerOn]⟩
  cases r <;> rfl

/-- Settles O2: reset is power-on with the default parameters, which are admitted. -/
theorem powerOnSatisfiesInvariant : Obligations.PowerOnSatisfiesInvariant :=
  ⟨fun _ h => State.inv_powerOn h, State.inv_powerOn configValid_default⟩

/-! ## Reads -/

/-- A bus read depends on the parameters and the regions alone (R120). -/
theorem State.busByte_congr {s t : State} (hc : s.cfg = t.cfg) (hr : s.regions = t.regions) (a : Addr) :
    s.busByte a = t.busByte a := by
  unfold State.busByte
  rw [hc, hr]

/-- Under R10 a bus read of a mapped address is the byte of its region. -/
theorem State.busByte_mapped (s : State) {r : Region} {off : Nat} {a : Addr} (hv : configValid s.cfg = true)
    (hm : mapped s r off a) : s.busByte a = s.byteAt r off := by
  simp only [State.busByte, readByteBus, busDecode_mapped s r off a hv hm, State.byteAt]

/-- QUERY_RANGE as one equation (R126). -/
theorem exec_queryRange_eq (r : Region) (s : State) :
    exec (.queryRange r) s = .next (s.emit
      (if attached s.regions r then
        .range (regionBase s.cfg r) (regionLen s.cfg r) (regionBase s.cfg r + regionLen s.cfg r - 1)
      else .notAttached)) := by
  simp only [exec, execQueryRange]
  split <;> rfl

/-- Settles O20: a read of any width is made of bus reads, and a range query of the window and the attachment. -/
theorem readsDoNotSeeHiddenState : Obligations.ReadsDoNotSeeHiddenState := by
  intro s t i hc hr hi
  have hbus := State.busByte_congr hc hr
  obtain ⟨a, rfl | rfl | rfl⟩ | ⟨r, rfl⟩ := hi
  · exact ⟨_, rfl, by simp only [exec, execReadByte, hbus]⟩
  · exact ⟨_, rfl, by simp only [exec, execReadWord, hbus]⟩
  · exact ⟨_, rfl, by simp only [exec, execReadLong, hbus]⟩
  · exact ⟨_, exec_queryRange_eq r s, by rw [exec_queryRange_eq, hc, hr]⟩

/-! ## Stores without a side effect -/

/-- Outside SCREEN_BASE, CURSOR_COL and CURSOR_ROW a byte write is its store (R24, R127). -/
theorem writeByteBus_plain (s : State) {r : Region} {off : Nat} {a : Addr} (d : Byte) (hv : configValid s.cfg = true)
    (hm : mapped s r off a) (hp : r = .ramw → 0x04 ≤ off ∧ off < 0x0E ∨ 0x12 ≤ off) :
    writeByteBus a d s = s.withRegions (regionWriteByte s.cfg r off d s.regions) := by
  rw [writeByteBus_mapped s r off a d hv hm, sideEffects_plain _ r off hp]

/-- A store changes region bytes only. -/
theorem store_sameButBytes (s : State) (r : Region) (off : Nat) (d : Byte) :
    sameButBytes s (s.withRegions (regionWriteByte s.cfg r off d s.regions)) := by
  simp [sameButBytes, attached_writeByte]

/-- Settles O22: the write is its store, and a read decodes the address to the stored byte again. -/
theorem plainByteWrite : Obligations.PlainByteWrite := by
  intro s r off a d hv hm hp
  have hw := writeByteBus_plain s d hv hm hp
  have hbyte : ∀ q p, (writeByteBus a d s).byteAt q p = if q = r ∧ p = off then d else s.byteAt q p := fun q p => by
    rw [hw, store_byteAt s r off a d hm]
  have hself : (writeByteBus a d s).byteAt r off = d := by simp [hbyte]
  have hread : (writeByteBus a d s).busByte a = d := by
    rw [State.busByte_mapped _ (by rwa [writeByteBus_cfg]) ((mapped_writeByteBus s a d r off a).mpr hm), hself]
  refine ⟨writeByteBus a d s, rfl, by simp only [exec, execReadByte, hread], hself, fun q p hne => ?_, ?_⟩
  · rw [hbyte, if_neg (by simpa using hne)]
  · exact hw ▸ store_sameButBytes s r off d

/-! ## What of the state a frame shows -/

/-- Settles O36: every frame that compose answers is built by `Frame.ofRaster`. -/
theorem presentedFramesAre640By480 : Obligations.PresentedFramesAre640By480 := by
  intro s
  have hshape := Frame.ofRaster_shape (composeRaster (snapshotOf s) s.blink s.draws).1
  exact ⟨_, _, (presents_iff s _ _).mpr rfl, hshape⟩

/-- The cursor's gate reads nothing of the blink state but the phase, and with CURSOR_EN clear not even that (R180). -/
theorem drawCursor_blink_congr {sn : Snapshot} {b b' : Blink}
    (h : cursorEn (sn.byte .io cursorCtrl) = false ∨ b.phase = b'.phase) : drawCursor sn b = drawCursor sn b' := by
  funext xOff yOff F
  unfold drawCursor
  rcases h with hen | hphase
  · simp [hen]
  · rw [hphase]

theorem textLayer_blink_congr {sn : Snapshot} {b b' : Blink}
    (h : cursorEn (sn.byte .io cursorCtrl) = false ∨ b.phase = b'.phase) : textLayer sn b = textLayer sn b' := by
  funext overlay draw F
  unfold textLayer
  rw [drawCursor_blink_congr h]

/-- A compose reads the blink state in the text layer only (R154). -/
theorem compose_blink_congr {sn : Snapshot} {b b' : Blink}
    (h : textEn (sn.byte .io modeReg) = true → textLayer sn b = textLayer sn b') (k : Nat) :
    compose sn b k = compose sn b' k := by
  unfold compose composeRaster
  by_cases htext : textEn (sn.byte .io modeReg) = true
  · rw [h htext]
  · simp [htext]

/-- Settles O42: either the text layer does not run, or its cursor's gate does not tell the two blink states apart. -/
theorem blinkShowsOnlyThroughTheCursor : Obligations.BlinkShowsOnlyThroughTheCursor := by
  intro sn b b' k h
  refine compose_blink_congr (fun htext => textLayer_blink_congr ?_) k
  rcases h with hcursor | hmode | hphase
  · exact .inl hcursor
  · exact absurd (htext.symm.trans hmode) (by decide)
  · exact .inr hphase

/-- A byte write to SCREEN_BASE recomputes CURSOR_POS (R130, R132). -/
theorem sideEffects_screenBase (s : State) {off : Nat} (h : off < 0x04) :
    sideEffects .ramw off s = recomputePos s := by
  unfold sideEffects
  simp only [ne_eq, not_true_eq_false, if_false, cursorCol, cursorRow, screenBase]
  rw [if_neg (by omega), if_neg (by omega), if_pos (by omega)]

/-- RecomputePos writes no byte outside CURSOR_POS. -/
theorem recomputePos_byteAt (s : State) {q : Region} {p : Nat} (h : q ≠ .ramw ∨ p < 0x04 ∨ 0x08 ≤ p) :
    (recomputePos s).byteAt q p = s.byteAt q p := by
  refine (setRamField_byte s cursorPos 4 (linearOffset s) q p).trans (if_neg ?_)
  rintro ⟨hq, hlo, hhi, -⟩
  simp only [cursorPos] at hlo hhi
  rcases h with h | h
  · exact h hq
  · omega

/-- The side effects of a store to a byte that rendering does not read: none, or RecomputePos. -/
theorem sideEffects_of_unreadByte (s : State) {r : Region} {off : Nat} (h : unreadByte r off) :
    sideEffects r off s = s ∨ sideEffects r off s = recomputePos s := by
  by_cases hbase : r = .ramw ∧ off < 0x04
  · obtain ⟨rfl, hlt⟩ := hbase
    exact .inr (sideEffects_screenBase s hlt)
  · refine .inl (sideEffects_plain s r off ?_)
    rintro rfl
    have hge : ¬ off < 0x04 := fun hlt => hbase ⟨rfl, hlt⟩
    simp only [unreadByte] at h
    omega

/-- A write to a byte that rendering does not read changes none that it reads: CURSOR_POS is not read either (R133). -/
theorem writeByteBus_unread_byteAt (s : State) {r : Region} {off : Nat} {a : Addr} (d : Byte)
    (hv : configValid s.cfg = true) (hm : mapped s r off a) (hu : unreadByte r off) {q : Region} {p : Nat}
    (hq : ¬ unreadByte q p) : (writeByteBus a d s).byteAt q p = s.byteAt q p := by
  have hstore : (s.withRegions (regionWriteByte s.cfg r off d s.regions)).byteAt q p = s.byteAt q p := by
    rw [store_byteAt s r off a d hm, if_neg]
    rintro ⟨rfl, rfl⟩
    exact hq hu
  rw [writeByteBus_mapped s r off a d hv hm]
  rcases sideEffects_of_unreadByte (s.withRegions (regionWriteByte s.cfg r off d s.regions)) hu with h | h
  · rw [h, hstore]
  · rw [h, recomputePos_byteAt, hstore]
    by_cases hram : q = .ramw
    · subst hram
      simp only [unreadByte] at hq
      omega
    · exact .inl hram

/-- A write to a byte that rendering does not read does not restart the blink (R131). -/
theorem writeByteBus_unread_blink (s : State) {r : Region} {off : Nat} {a : Addr} (d : Byte)
    (hv : configValid s.cfg = true) (hm : mapped s r off a) (hu : unreadByte r off) :
    (writeByteBus a d s).blink = s.blink := by
  rw [writeByteBus_mapped s r off a d hv hm, sideEffects_blink, if_neg, State.withRegions_blink]
  rintro ⟨rfl, hlo, hhi⟩
  simp only [unreadByte, cursorCol, cursorRow] at hu hlo hhi
  omega

/-- States that agree on every byte that rendering reads have snapshots that render alike. -/
theorem SameReads.of_byteAt {s t : State} (hcfg : t.cfg = s.cfg) (hsets : t.charsets = s.charsets)
    (hatt : ∀ r, attached t.regions r = attached s.regions r)
    (hbyte : ∀ {q p}, ¬ unreadByte q p → t.byteAt q p = s.byteAt q p) : SameReads (snapshotOf s) (snapshotOf t) where
  cfg := hcfg
  sets := hsets
  att := hatt
  vram _ := hbyte id
  ramw o h1 h2 := hbyte (by simp only [unreadByte]; omega)
  io _ h _ _ _ := hbyte h
  mode0 := congrArg (·.getLsbD 0) (hbyte (by simp [unreadByte]))
  mode3 := congrArg (·.getLsbD 3) (hbyte (by simp [unreadByte]))
  mode1 _ := congrArg (·.getLsbD 1) (hbyte (by simp [unreadByte]))
  cursor := congrArg (·.getLsbD 0) (hbyte (by simp [unreadByte]))
  bitmap := congrArg (·.toNat % 16) (hbyte (by simp [unreadByte]))

/-- Settles O46: the write leaves every byte that rendering reads and the blink state, so compose answers the same. -/
theorem unreadBytesDoNotShow : Obligations.UnreadBytesDoNotShow := by
  intro s r off a d hv hm hu
  obtain ⟨hcfg, hsets, -, -, -, hdraws, -, hatt⟩ := writeByteBus_frame s a d
  have hreads := SameReads.of_byteAt hcfg hsets hatt fun hq => writeByteBus_unread_byteAt s d hv hm hu hq
  refine ⟨writeByteBus a d s, rfl, fun f diag => ?_⟩
  rw [presents_iff, presents_iff, hdraws,
    hreads.compose _ _ _ (congrArg Blink.phase (writeByteBus_unread_blink s d hv hm hu))]

end Sys2Proof.Machine

/-! PROOFS. The bus and the total order of operations (20_memory.md): unmapped addresses (R63), wide writes (R66, R69)
and what one step takes from the agents' queues (R70 to R72). -/

namespace Sys2Proof.Machine

/-! ## Unmapped addresses -/

/-- A bus read of an unmapped address is 0 (R63). -/
theorem State.busByte_unmapped (s : State) {a : Addr} (h : unmapped s a) : s.busByte a = 0 := by
  simp only [State.busByte, readByteBus, busDecode_unmapped s a h]

/-- A byte write to an unmapped address is a no-op (R63). -/
theorem writeByteBus_unmapped (s : State) {a : Addr} (d : Byte) (h : unmapped s a) : writeByteBus a d s = s := by
  simp only [writeByteBus, busDecode_unmapped s a h]

/-- Settles O21: an unmapped address does not decode, for a read and for a write. -/
theorem unmappedAccessesDoNothing : Obligations.UnmappedAccessesDoNothing := by
  intro s a d h
  constructor
  · simp only [exec, execReadByte, State.busByte_unmapped s h]
  · simp only [exec, execWriteByte, writeByteBus_unmapped s d h]

/-! ## The step and the agents' queues -/

/-- Settles O10: no operation faults or refuses. -/
theorem everyOperationCompletes : Obligations.EveryOperationCompletes := exec_eq_next

/-- Settles O4: the schedule offers the operation at the front of the queue, and the step runs what is offered. -/
theorem stepRunsScheduledOperation : Obligations.StepRunsScheduledOperation := by
  intro s a later i rest hv hs hd hi
  simp only [step, if_pos hv, takeNext_decoded s a later i rest hs hd hi]

@[simp] theorem State.withSchedule_queue (s : State) (l : List Agent) (a : Agent) :
    (s.withSchedule l).queue a = s.queue a := by cases a <;> rfl

/-- Running an operation takes nothing from a queue and gives nothing to one. -/
theorem exec_queue {i : Instr} {s t : State} (h : exec i s = .next t) (a : Agent) : t.queue a = s.queue a := by
  obtain ⟨-, hcpu, hhost, -⟩ := exec_frame i s t h
  cases a with
  | cpuSide => exact hcpu
  | host => exact hhost

/-- Settles O9: a step that has a turn to use passes it or takes one operation with it, and running the operation leaves
schedule and queues alone. -/
theorem stepKeepsEachAgentsOrder : Obligations.StepKeepsEachAgentsOrder := by
  intro s t a later hs hstep
  obtain ⟨-, ⟨hnil, -⟩ | ⟨a', later', hs', hturn⟩⟩ := step_cases s t hstep
  · cases hs.symm.trans hnil
  · cases hs.symm.trans hs'
    obtain ⟨-, rfl⟩ | ⟨i, rest, hd, hi, hx⟩ := hturn
    · exact ⟨rfl, fun b _ => State.withSchedule_queue s later b, .inl (State.withSchedule_queue s later a).symm⟩
    · have hown : t.queue a = rest := by rw [exec_queue hx, State.withQueue_queue]
      have hsched : t.schedule = later := by
        obtain ⟨-, -, -, h⟩ := exec_frame _ _ _ hx
        rw [h, State.withQueue_schedule, State.withSchedule_schedule]
      refine ⟨hsched, fun b hb => ?_, .inr ⟨i, hi, by rw [hd, hown]⟩⟩
      rw [exec_queue hx, State.withQueue_queue_other _ a b rest hb, State.withSchedule_queue]

/-! ## One byte write among several -/

/-- The byte is outside CURSOR_POS, CURSOR_COL and CURSOR_ROW, the fields that the core itself writes (R128 to R130). -/
def coreNeverWrites (q : Region) (p : Nat) : Prop := q = .ramw → p < 0x04 ∨ 0x08 ≤ p ∧ p < 0x0E ∨ 0x12 ≤ p

theorem sideEffects_byteAt (s : State) (r : Region) (off : Nat) {q : Region} {p : Nat} (hc : coreNeverWrites q p) :
    (sideEffects r off s).byteAt q p = s.byteAt q p := by
  obtain ⟨hcfg, -⟩ := sideEffects_frame s r off
  unfold State.byteAt
  rw [hcfg, sideEffects_byte]
  by_cases hq : q = .ramw
  · exact .inr (hc hq)
  · exact .inl hq

/-- A byte of a region has one bus address (R61). -/
theorem mapped_addr_unique {s : State} {q : Region} {p : Nat} {a b : Addr} (ha : mapped s q p a) (hb : mapped s q p b) :
    a = b :=
  BitVec.eq_of_toNat_eq (ha.2.2.trans hb.2.2.symm)

/-- A byte write stores its byte, and the side effects leave it there unless they own it. -/
theorem writeByteBus_byteAt_addressed (s : State) {q : Region} {p : Nat} {a : Addr} (d : Byte)
    (hv : configValid s.cfg = true) (hm : mapped s q p a) (hc : coreNeverWrites q p) :
    (writeByteBus a d s).byteAt q p = d := by
  rw [writeByteBus_mapped s q p a d hv hm, sideEffects_byteAt _ q p hc, store_byteAt s q p a d hm, if_pos ⟨rfl, rfl⟩]

/-- A store changes the byte it addresses only. -/
theorem store_byteAt_unaddressed (s : State) {r q : Region} {off p : Nat} {a : Addr} (d : Byte) (hr : mapped s r off a)
    (hm : ¬ mapped s q p a) : (s.withRegions (regionWriteByte s.cfg r off d s.regions)).byteAt q p = s.byteAt q p := by
  rw [store_byteAt s r off a d hr, if_neg]
  rintro ⟨rfl, rfl⟩
  exact hm hr

/-- What a byte write does not address it changes in the fields that the core writes only. -/
theorem writeByteBus_byteAt_unaddressed (s : State) {q : Region} {p : Nat} {a : Addr} (d : Byte)
    (hm : ¬ mapped s q p a) (hc : coreNeverWrites q p) : (writeByteBus a d s).byteAt q p = s.byteAt q p := by
  obtain ⟨-, hw⟩ | ⟨r, off, hdec, -, -, hw⟩ := writeByteBus_cases s a d
  · rw [hw]
  · rw [hw, sideEffects_byteAt _ r off hc, store_byteAt_unaddressed s d (mapped_of_busDecode s r off a hdec) hm]

/-- A byte write that addresses no byte of SCREEN_BASE, CURSOR_COL and CURSOR_ROW has no side effect (R127). -/
theorem writeByteBus_frame_of_plain (s : State) {a : Addr} (d : Byte)
    (hp : ∀ p, mapped s .ramw p a → 0x04 ≤ p ∧ p < 0x0E ∨ 0x12 ≤ p) :
    (writeByteBus a d s).blink = s.blink ∧
      ∀ q p, ¬ mapped s q p a → (writeByteBus a d s).byteAt q p = s.byteAt q p := by
  obtain ⟨-, hw⟩ | ⟨r, off, hdec, -, -, hw⟩ := writeByteBus_cases s a d
  · simp [hw]
  · have hm := mapped_of_busDecode s r off a hdec
    rw [hw, sideEffects_plain _ r off fun hr => hp off (hr ▸ hm)]
    exact ⟨rfl, fun q p => store_byteAt_unaddressed s d hm⟩

/-! ## Wide writes -/

/-- The low `n` bytes of `d` written in ascending order, the addresses mod 2^32 (R66). -/
def writeLow (a : Addr) (d : Long) : Nat → State → State
  | 0, s => s
  | n + 1, s => writeByteBus (BitVec.ofNat 32 (a.toNat + n)) (BitVec.ofNat 8 (d.toNat / 256 ^ n)) (writeLow a d n s)

theorem addr_add_ofNat (a : Addr) (k : Nat) : BitVec.ofNat 32 (a.toNat + k) = a + BitVec.ofNat 32 k := by
  rw [BitVec.ofNat_add, BitVec.ofNat_toNat, BitVec.setWidth_eq]

/-- A byte of the low half of a long, taken from the half. -/
theorem byteOf_lowHalf (d : Long) {k : Nat} (hk : k < 2) :
    byteOf (BitVec.ofNat 16 d.toNat) k = BitVec.ofNat 8 (d.toNat / 256 ^ k) := by
  rw [byteOf_eq_ofNat]
  apply BitVec.eq_of_toNat_eq
  simp only [BitVec.toNat_ofNat]
  interval_cases k <;> omega

/-- WRITE_WORD of the low half writes two bytes (R123). -/
theorem exec_writeWord_eq (a : Addr) (d : Long) (s : State) :
    exec (.writeWord a (BitVec.ofNat 16 d.toNat)) s = .next (writeLow a d 2 s) := by
  simp only [exec, execWriteWord, writeLow, addr_add_ofNat, byteOf_lowHalf d (k := 0) (by decide),
    byteOf_lowHalf d (k := 1) (by decide), BitVec.add_zero]
  rfl

/-- WRITE_LONG writes four bytes (R125). -/
theorem exec_writeLong_eq (a : Addr) (d : Long) (s : State) :
    exec (.writeLong a d) s = .next (writeLow a d 4 s) := by
  simp only [exec, execWriteLong, writeLow, addr_add_ofNat, byteOf_eq_ofNat, BitVec.add_zero]
  rfl

/-- Distinct bytes of a wide write have distinct addresses. -/
theorem addr_add_ne (a : Addr) {k n : Nat} (hk : k < n) (hn : n < 2 ^ 32) :
    BitVec.ofNat 32 (a.toNat + k) ≠ BitVec.ofNat 32 (a.toNat + n) := by
  intro h
  have := congrArg BitVec.toNat h
  simp only [BitVec.toNat_ofNat] at this
  omega

theorem writeLow_sameButBytes (a : Addr) (d : Long) (n : Nat) (s : State) :
    sameButBytes { s with blink := (writeLow a d n s).blink } (writeLow a d n s) := by
  induction n with
  | zero => exact sameButBytes_refl s
  | succ n ih =>
    obtain ⟨h1, h2, -, h3, h4, h5, h6, h7, h8⟩ := ih
    obtain ⟨k1, k2, k3, k4, k5, k6, k7, k8⟩ := writeByteBus_frame (writeLow a d n s)
      (BitVec.ofNat 32 (a.toNat + n)) (BitVec.ofNat 8 (d.toNat / 256 ^ n))
    exact ⟨k1.trans h1, k2.trans h2, rfl, k3.trans h3, k4.trans h4, k5.trans h5, k6.trans h6, k7.trans h7,
      fun r => (k8 r).trans (h8 r)⟩

theorem writeLow_cfg (a : Addr) (d : Long) (n : Nat) (s : State) : (writeLow a d n s).cfg = s.cfg :=
  (writeLow_sameButBytes a d n s).1

theorem mapped_writeLow (a : Addr) (d : Long) (n : Nat) (s : State) {q : Region} {p : Nat} {b : Addr} :
    mapped (writeLow a d n s) q p b ↔ mapped s q p b := by
  induction n with
  | zero => exact Iff.rfl
  | succ n ih => exact (mapped_writeByteBus ..).trans ih

theorem writeLow_byteAt_unaddressed (a : Addr) (d : Long) (n : Nat) (s : State) {q : Region} {p : Nat}
    (hm : ∀ k, k < n → ¬ mapped s q p (BitVec.ofNat 32 (a.toNat + k))) (hc : coreNeverWrites q p) :
    (writeLow a d n s).byteAt q p = s.byteAt q p := by
  induction n with
  | zero => rfl
  | succ n ih =>
    have hlast : ¬ mapped (writeLow a d n s) q p (BitVec.ofNat 32 (a.toNat + n)) :=
      fun h => hm n (by omega) ((mapped_writeLow a d n s).mp h)
    exact (writeByteBus_byteAt_unaddressed _ _ hlast hc).trans (ih fun k hk => hm k (by omega))

/-- A byte stored early is not overwritten: the later bytes have other addresses. -/
theorem writeLow_byteAt_addressed (a : Addr) (d : Long) (n : Nat) (s : State) (hv : configValid s.cfg = true)
    (hn : n ≤ 2 ^ 32) {k : Nat} (hk : k < n) {q : Region} {p : Nat}
    (hm : mapped s q p (BitVec.ofNat 32 (a.toNat + k))) (hc : coreNeverWrites q p) :
    (writeLow a d n s).byteAt q p = BitVec.ofNat 8 (d.toNat / 256 ^ k) := by
  induction n with
  | zero => omega
  | succ n ih =>
    obtain hlt | rfl := Nat.lt_succ_iff_lt_or_eq.mp hk
    · have hlater : ¬ mapped (writeLow a d n s) q p (BitVec.ofNat 32 (a.toNat + n)) := fun h =>
        addr_add_ne a hlt (by omega) (mapped_addr_unique hm ((mapped_writeLow a d n s).mp h))
      exact (writeByteBus_byteAt_unaddressed _ _ hlater hc).trans (ih (by omega) hlt)
    · exact writeByteBus_byteAt_addressed _ _ (by rwa [writeLow_cfg]) ((mapped_writeLow a d k s).mpr hm) hc

theorem writeLow_frame_of_plain (a : Addr) (d : Long) (n : Nat) (s : State)
    (hp : ∀ k p, k < n → mapped s .ramw p (BitVec.ofNat 32 (a.toNat + k)) → 0x04 ≤ p ∧ p < 0x0E ∨ 0x12 ≤ p) :
    (writeLow a d n s).blink = s.blink ∧
      ∀ q p, (∀ k, k < n → ¬ mapped s q p (BitVec.ofNat 32 (a.toNat + k))) →
        (writeLow a d n s).byteAt q p = s.byteAt q p := by
  induction n with
  | zero => exact ⟨rfl, fun _ _ _ => rfl⟩
  | succ n ih =>
    obtain ⟨hblink, hbyte⟩ := ih fun k p hk => hp k p (by omega)
    obtain ⟨hblink', hbyte'⟩ := writeByteBus_frame_of_plain (writeLow a d n s)
      (a := BitVec.ofNat 32 (a.toNat + n)) (BitVec.ofNat 8 (d.toNat / 256 ^ n))
      fun p h => hp n p (by omega) ((mapped_writeLow a d n s).mp h)
    refine ⟨hblink'.trans hblink, fun q p hm => ?_⟩
    have hlast : ¬ mapped (writeLow a d n s) q p (BitVec.ofNat 32 (a.toNat + n)) :=
      fun h => hm n (by omega) ((mapped_writeLow a d n s).mp h)
    exact (hbyte' q p hlast).trans (hbyte q p fun k hk => hm k (by omega))

/-- Settles O29: both operations are runs of byte writes to distinct addresses, and each part of the statement holds of
such a run by induction on its length. -/
theorem wideWritesStoreTheirBytes : Obligations.WideWritesStoreTheirBytes := by
  intro s a d i n hv hi
  obtain ⟨hx, hn⟩ : exec i s = .next (writeLow a d n s) ∧ n ≤ 2 ^ 32 := by
    obtain ⟨rfl, rfl⟩ | ⟨rfl, rfl⟩ := hi
    · exact ⟨exec_writeWord_eq a d s, by decide⟩
    · exact ⟨exec_writeLong_eq a d s, by decide⟩
  exact ⟨writeLow a d n s, hx, fun k q p hk hm hc => writeLow_byteAt_addressed a d n s hv hn hk hm hc,
    fun q p hm hc => writeLow_byteAt_unaddressed a d n s hm hc, writeLow_frame_of_plain a d n s,
    writeLow_sameButBytes a d n s⟩

end Sys2Proof.Machine

/-! PROOFS. Encoding (30_encoding.md): the decoder and the encoder are each other's inverse (R111), what is refused
(R113), how long an operation is (R114) and how an opcode-table word is issued (R70). -/

namespace Sys2Proof

open Sys2Proof.Machine

/-! ## Each format reads back what the encoder writes (R111, R115) -/

theorem decodeA_longBytes (mk : Addr → Instr) (op : Byte) (a : Addr) (rest : List Byte) :
    decodeA mk op (longBytes a ++ rest) = .ok (mk a, rest) := by
  simp [decodeA, longBytes, le32_byteOf]

theorem decodeAD8_longBytes (mk : Addr → Byte → Instr) (op : Byte) (a : Addr) (d : Byte) (rest : List Byte) :
    decodeAD8 mk op (longBytes a ++ d :: rest) = .ok (mk a d, rest) := by
  simp [decodeAD8, longBytes, le32_byteOf]

theorem decodeAD16_longBytes (mk : Addr → Half → Instr) (op : Byte) (a : Addr) (d : Half) (rest : List Byte) :
    decodeAD16 mk op (longBytes a ++ (halfBytes d ++ rest)) = .ok (mk a d, rest) := by
  simp [decodeAD16, longBytes, halfBytes, le32_byteOf, le16_byteOf]

theorem decodeAD32_longBytes (mk : Addr → Long → Instr) (op : Byte) (a : Addr) (d : Long) (rest : List Byte) :
    decodeAD32 mk op (longBytes a ++ (longBytes d ++ rest)) = .ok (mk a d, rest) := by
  simp [decodeAD32, longBytes, le32_byteOf]

theorem decodeR_codeOfRegion (mk : Region → Instr) (op : Byte) (r : Region) (rest : List Byte) :
    decodeR mk op (codeOfRegion r :: rest) = .ok (mk r, rest) := by
  simp [decodeR, regionOfCode_codeOfRegion]

/-- The operand `n` of a stream that fits its field is the stream's length (R114, R240). -/
theorem toNat_streamLength {stream : List Byte} (h : stream.length < 2 ^ 32) :
    (BitVec.ofNat 32 stream.length).toNat = stream.length := by
  rw [BitVec.toNat_ofNat, Nat.mod_eq_of_lt h]

theorem decodeL_longBytes (op : Byte) (r : Region) (toff soff : BitVec 32) (gw gh id tag : Byte)
    (stream rest : List Byte) (h : stream.length < 2 ^ 32) :
    decodeL op (codeOfRegion r :: (longBytes toff ++ (longBytes soff ++ ([gw, gh, id, tag] ++
        (longBytes (BitVec.ofNat 32 stream.length) ++ (stream ++ rest)))))) =
      .ok (.loadCharset r toff soff gw gh id tag stream, rest) := by
  have hn := toNat_streamLength h
  simp [decodeL, longBytes, regionOfCode_codeOfRegion, le32_byteOf, hn]

/-- Settles O11: the opcode selects the format, and each format reads its operands back. -/
theorem decodeInvertsEncode : Obligations.DecodeInvertsEncode := by
  intro i rest hwf
  cases i with
  | readByte a => exact decodeA_longBytes .readByte 0x01 a rest
  | readWord a => exact decodeA_longBytes .readWord 0x03 a rest
  | readLong a => exact decodeA_longBytes .readLong 0x05 a rest
  | writeByte a d => exact decodeAD8_longBytes .writeByte 0x02 a d rest
  | writeWord a d => exact decodeAD16_longBytes .writeWord 0x04 a d rest
  | writeLong a d => exact decodeAD32_longBytes .writeLong 0x06 a d rest
  | queryRange r => exact decodeR_codeOfRegion .queryRange 0x07 r rest
  | attachRegion r => exact decodeR_codeOfRegion .attachRegion 0x30 r rest
  | tick => rfl
  | loadCharset r toff soff gw gh id tag stream =>
    have hlen : stream.length < 2 ^ 32 := of_decide_eq_true hwf
    rw [← decodeL_longBytes 0x20 r toff soff gw gh id tag stream rest hlen]
    simp [encode, decode_cons]

/-- Settles O12: whichever format the opcode selects, the bytes it accepts are the operands' own. -/
theorem encodeInvertsDecode : Obligations.EncodeInvertsDecode := by
  intro bs rest i h
  cases bs with
  | nil => cases h
  | cons op bs =>
    rw [decode_cons] at h
    split_ifs at h with h01 h02 h03 h04 h05 h06 h07 h10 h20 h30
    · obtain ⟨a, rfl, rfl⟩ := decodeA_ok _ _ _ _ _ h
      exact ⟨by simp [encode, h01], rfl⟩
    · obtain ⟨a, d, rfl, rfl⟩ := decodeAD8_ok _ _ _ _ _ h
      exact ⟨by simp [encode, h02], rfl⟩
    · obtain ⟨a, rfl, rfl⟩ := decodeA_ok _ _ _ _ _ h
      exact ⟨by simp [encode, h03], rfl⟩
    · obtain ⟨a, d, rfl, rfl⟩ := decodeAD16_ok _ _ _ _ _ h
      exact ⟨by simp [encode, h04], rfl⟩
    · obtain ⟨a, rfl, rfl⟩ := decodeA_ok _ _ _ _ _ h
      exact ⟨by simp [encode, h05], rfl⟩
    · obtain ⟨a, d, rfl, rfl⟩ := decodeAD32_ok _ _ _ _ _ h
      exact ⟨by simp [encode, h06], rfl⟩
    · obtain ⟨r, rfl, rfl⟩ := decodeR_ok _ _ _ _ _ h
      exact ⟨by simp [encode, h07], rfl⟩
    · cases h
      exact ⟨by simp [encode, h10], rfl⟩
    · obtain ⟨r, toff, soff, gw, gh, id, tag, stream, rfl, hlen, rfl⟩ := decodeL_ok _ _ _ _ h
      exact ⟨by simp [encode, h20], decide_eq_true hlen⟩
    · obtain ⟨r, rfl, rfl⟩ := decodeR_ok _ _ _ _ _ h
      exact ⟨by simp [encode, h30], rfl⟩

/-! ## Length (R114) -/

theorem length_longBytes (v : Long) : (longBytes v).length = 4 := rfl

/-- Every operation's encoding has the format's length and starts with the opcode (R110, R114). -/
theorem encodedShape (i : Instr) : Laws.EncodedShape.Statement i := by
  cases i with
  | readByte a => exact Laws.EncodedShape.readByte a
  | writeByte a d => exact Laws.EncodedShape.writeByte a d
  | readWord a => exact Laws.EncodedShape.readWord a
  | writeWord a d => exact Laws.EncodedShape.writeWord a d
  | readLong a => exact Laws.EncodedShape.readLong a
  | writeLong a d => exact Laws.EncodedShape.writeLong a d
  | queryRange r => exact Laws.EncodedShape.queryRange r
  | tick => exact Laws.EncodedShape.tick
  | loadCharset => exact Laws.EncodedShape.loadCharset ..
  | attachRegion r => exact Laws.EncodedShape.attachRegion r

/-- A string that decodes is as much longer than what is left over as the format says (R114). -/
theorem length_of_decode {bs rest : List Byte} {i : Instr} (h : decode bs = .ok (i, rest)) :
    bs.length = rest.length + opLength i := by
  obtain ⟨rfl, -⟩ := encodeInvertsDecode bs rest i h
  obtain ⟨hlen, -⟩ := encodedShape i
  rw [List.length_append, hlen, Nat.add_comm]

/-- Byte 0 of a string that decodes is its operation's opcode (R110). -/
theorem opcode_of_decode {op : Byte} {bs rest : List Byte} {i : Instr} (h : decode (op :: bs) = .ok (i, rest)) :
    op = opcode i := by
  obtain ⟨henc, -⟩ := encodeInvertsDecode _ rest i h
  obtain ⟨-, hop⟩ := encodedShape i
  have hhead := congrArg List.head? henc
  rw [List.head?_append, hop] at hhead
  exact (Option.some.inj hhead).symm

/-- Settles O14: the bytes of an operation are its encoding, and the encoding has the format's length. -/
theorem decodedLengthIsTheFormats : Obligations.DecodedLengthIsTheFormats := by
  intro bs rest i h
  rw [length_of_decode h]
  cases i <;> rfl

/-! ## Refusal (R113) -/

/-- A string is refused when no operation is decoded from it. -/
theorem exists_error_of_not_decoded {bs : List Byte} (h : ∀ i rest, decode bs ≠ .ok (i, rest)) :
    ∃ e, decode bs = .error e := by
  cases hd : decode bs with
  | error e => exact ⟨e, rfl⟩
  | ok p => exact absurd hd (h p.1 p.2)

/-- The opcode bytes of the table R111. -/
theorem opcode_toNat_mem (i : Instr) :
    (opcode i).toNat ∈ [0x01, 0x02, 0x03, 0x04, 0x05, 0x06, 0x07, 0x10, 0x20, 0x30] := by
  cases i <;> simp [opcode]

theorem codeOfRegion_lt (r : Region) : (codeOfRegion r).toNat < 3 := by
  cases r <;> decide

/-- Byte 1 of an operation with a region operand is the operand, a code below 3 (R112). -/
theorem regionCode_lt_of_decode {op code : Byte} {bs rest : List Byte} {i : Instr}
    (hop : op.toNat ∈ [0x07, 0x20, 0x30]) (h : decode (op :: code :: bs) = .ok (i, rest)) : code.toNat < 3 := by
  obtain ⟨henc, -⟩ := encodeInvertsDecode _ rest i h
  obtain rfl := opcode_of_decode h
  cases i with
  | queryRange r | attachRegion r | loadCharset r =>
    obtain ⟨-, rfl, -⟩ : _ ∧ codeOfRegion r = code ∧ _ := by simpa [encode] using henc
    exact codeOfRegion_lt r
  | _ => simp [opcode] at hop

/-- The opcode byte of an operation gives its length, or for LOAD_CHARSET the part before the stream (R114). -/
theorem fixedLength_opcode (i : Instr) :
    ∃ len, fixedLength (opcode i).toNat = some len ∧ len ≤ opLength i ∧
      ((opcode i).toNat ≠ 0x20 → len = opLength i) := by
  cases i with
  | loadCharset => exact ⟨18, rfl, Nat.le_add_right 18 _, fun h => absurd rfl h⟩
  | _ => exact ⟨_, rfl, le_rfl, fun _ => rfl⟩

theorem longBytes_injective {v w : Long} (h : longBytes v = longBytes w) : v = w := by
  simp only [longBytes, List.cons.injEq] at h
  obtain ⟨h0, h1, h2, h3, -⟩ := h
  rw [← le32_byteOf v, h0, h1, h2, h3, le32_byteOf]

/-- Bytes 14 to 17 of a LOAD_CHARSET are the length of its stream, and the stream follows (R111, R114). -/
theorem stream_of_encode_loadCharset {r : Region} {toff soff : BitVec 32} {gw gh id tag : Byte}
    {stream rest head tail : List Byte} {n : Long} (hhead : head.length = 14) (hlen : stream.length < 2 ^ 32)
    (h : encode (.loadCharset r toff soff gw gh id tag stream) ++ rest = head ++ (longBytes n ++ tail)) :
    stream.length = n.toNat ∧ stream ++ rest = tail := by
  have hsplit : (0x20 :: codeOfRegion r :: (longBytes toff ++ (longBytes soff ++ [gw, gh, id, tag]))) ++
      (longBytes (BitVec.ofNat 32 stream.length) ++ (stream ++ rest)) = head ++ (longBytes n ++ tail) := by
    simpa [encode] using h
  obtain ⟨-, hafter⟩ := List.append_inj hsplit (by simp [length_longBytes, hhead])
  obtain ⟨hn, htail⟩ := List.append_inj hafter rfl
  rw [← longBytes_injective hn, toNat_streamLength hlen]
  exact ⟨rfl, htail⟩

theorem loadCharset_of_opcode {i : Instr} (h : opcode i = 0x20#8) :
    ∃ r toff soff gw gh id tag stream, i = .loadCharset r toff soff gw gh id tag stream := by
  cases i with
  | loadCharset => exact ⟨_, _, _, _, _, _, _, _, rfl⟩
  | _ => cases h

/-- A LOAD_CHARSET that decodes takes as many stream bytes as its operand `n` says (R114). -/
theorem stream_of_decode_loadCharset {head tail rest : List Byte} {n : Long} {i : Instr} (hhead : head.length = 14)
    (hop : head.head? = some 0x20#8) (h : decode (head ++ (longBytes n ++ tail)) = .ok (i, rest)) :
    opLength i = 18 + n.toNat ∧ n.toNat ≤ tail.length := by
  obtain ⟨op, head', rfl⟩ : ∃ op head', head = op :: head' := List.exists_cons_of_length_pos (by omega)
  obtain rfl : op = 0x20#8 := Option.some.inj hop
  obtain ⟨r, toff, soff, gw, gh, id, tag, stream, rfl⟩ := loadCharset_of_opcode (opcode_of_decode h).symm
  obtain ⟨henc, hwf⟩ := encodeInvertsDecode _ rest _ h
  obtain ⟨hlen, rfl⟩ := stream_of_encode_loadCharset hhead (of_decide_eq_true hwf) henc
  simp [opLength, ← hlen]

/-- Bytes that the decoder refuses never reach the core: the step is refused with the decoder's error. -/
theorem step_of_undecodable {s : State} {a : Agent} {later : List Agent} {e : DecodeError}
    (hv : configValid s.cfg = true) (hs : s.schedule = a :: later) (hq : s.queue a ≠ [])
    (hd : decode (s.queue a) = .error e) : step s = .refused (.undecodable e) := by
  obtain ⟨b, bs, hbs⟩ := List.exists_cons_of_ne_nil hq
  rw [hbs] at hd
  simp only [step, if_pos hv, takeNext, hs, hbs, hd]

/-- Settles O13: what is not refused is an encoding, and none has such an opcode, region operand or length; the step
decodes before it runs anything. -/
theorem unspelledBytesAreRefused : Obligations.UnspelledBytesAreRefused := by
  refine ⟨fun op bs hop => ?_, fun op code bs hop hcode => ?_, fun op bs len hlen hshort => ?_,
    fun head stream n0 n1 n2 n3 hhead hop hshort => ?_, fun s a later e => step_of_undecodable⟩
  · refine exists_error_of_not_decoded fun i rest h => hop ?_
    rw [opcode_of_decode h]
    exact opcode_toNat_mem i
  · refine exists_error_of_not_decoded fun i rest h => ?_
    exact absurd (regionCode_lt_of_decode hop h) (by omega)
  · refine exists_error_of_not_decoded fun i rest h => ?_
    obtain ⟨fixed, hfixed, hle, -⟩ := fixedLength_opcode i
    rw [opcode_of_decode h, hfixed] at hlen
    obtain rfl := Option.some.inj hlen
    have htotal := length_of_decode h
    omega
  · refine exists_error_of_not_decoded fun i rest h => ?_
    have hn : n0 :: n1 :: n2 :: n3 :: stream = longBytes (le32 n0 n1 n2 n3) ++ stream := by
      rw [longBytes_le32]
      rfl
    rw [hn] at h
    obtain ⟨-, hle⟩ := stream_of_decode_loadCharset hhead hop h
    omega

/-! ## Opcode-table words -/

theorem length_leBytes (n v : Nat) : (leBytes n v).length = n := by
  induction n generalizing v with
  | zero => rfl
  | succ n ih => rw [leBytes, List.length_cons, ih]

theorem leBytes_add (m n v : Nat) : leBytes (m + n) v = leBytes m v ++ leBytes n (v / 256 ^ m) := by
  induction m generalizing v with
  | zero => simp [leBytes]
  | succ m ih =>
    rw [Nat.succ_add, leBytes, ih, Nat.div_div_eq_div_mul, ← Nat.pow_succ']
    rfl

theorem leBytes_four (v : Nat) : leBytes 4 v = longBytes (BitVec.ofNat 32 v) := by
  simp only [leBytes, longBytes, byteOf_eq_ofNat, BitVec.toNat_ofNat, Nat.div_div_eq_div_mul, List.cons.injEq,
    and_true]
  refine ⟨?_, ?_, ?_, ?_⟩ <;> apply BitVec.eq_of_toNat_eq <;> simp only [BitVec.toNat_ofNat] <;> omega

/-- More bytes after a string that decodes are left over (R110). -/
theorem decode_append {bs rest : List Byte} {i : Instr} (h : decode bs = .ok (i, rest)) (more : List Byte) :
    decode (bs ++ more) = .ok (i, rest ++ more) := by
  obtain ⟨rfl, hwf⟩ := encodeInvertsDecode bs rest i h
  rw [List.append_assoc]
  exact decodeInvertsEncode i (rest ++ more) hwf

/-- The low byte of a number whose bytes decode is the opcode. -/
theorem opcode_of_decode_leBytes {n v : Nat} {i : Instr} {rest : List Byte} (h : decode (leBytes n v) = .ok (i, rest)) :
    v % 256 = (opcode i).toNat := by
  cases n with
  | zero => cases h
  | succ n =>
    rw [← opcode_of_decode h, BitVec.toNat_ofNat]

/-- What the bytes of an opcode-table word can be: those of a word without an opcode, of a LOAD_CHARSET with the stream
that its operand `n` asks for, or of any other operation at its fixed length. -/
theorem tableBytes_cases (nbits w : Nat) :
    ∃ n v, tableBytes nbits w = leBytes n v ∧
      (fixedLength (v % 256) = none ∨ (v % 256 = 0x20 ∧ n = 18 + v / 2 ^ 112 % 2 ^ 32) ∨
        (v % 256 ≠ 0x20 ∧ fixedLength (v % 256) = some n)) := by
  unfold tableBytes
  generalize w % 2 ^ nbits = v
  cases hf : fixedLength (v % 256) with
  | none => exact ⟨(nbits + 7) / 8, v, by simp only [hf], .inl hf⟩
  | some len =>
    by_cases hload : v % 256 = 0x20
    · obtain rfl : 18 = len := by simpa [hload, fixedLength] using hf
      exact ⟨_, v, by simp only [hf, if_pos hload], .inr (.inl ⟨hload, rfl⟩)⟩
    · exact ⟨len, v, by simp only [hf, if_neg hload], .inr (.inr ⟨hload, hf⟩)⟩

/-- Bits 112 to 143 of a LOAD_CHARSET word are its operand `n`. -/
theorem leBytes_loadCharset (k v : Nat) :
    leBytes (18 + k) v =
      leBytes 14 v ++ (longBytes (BitVec.ofNat 32 (v / 2 ^ 112)) ++ leBytes k (v / 2 ^ 144)) := by
  rw [show 18 + k = 14 + (4 + k) by omega, leBytes_add, leBytes_add, leBytes_four, Nat.div_div_eq_div_mul]
  norm_num

theorem opLength_of_decode_loadCharset_word {v : Nat} {i : Instr} {rest : List Byte} (hop : v % 256 = 0x20)
    (h : decode (leBytes (18 + v / 2 ^ 112 % 2 ^ 32) v) = .ok (i, rest)) :
    opLength i = 18 + v / 2 ^ 112 % 2 ^ 32 := by
  have hhead : (leBytes 14 v).head? = some 0x20#8 :=
    congrArg some (BitVec.eq_of_toNat_eq ((BitVec.toNat_ofNat v 8).trans hop))
  rw [leBytes_loadCharset] at h
  obtain ⟨hlen, -⟩ := stream_of_decode_loadCharset (length_leBytes 14 v) hhead h
  rw [hlen, BitVec.toNat_ofNat]

/-- The bytes of an opcode-table word that decodes are as many as its operation takes (R114). -/
theorem length_tableBytes {nbits w : Nat} {i : Instr} {rest : List Byte}
    (h : decode (tableBytes nbits w) = .ok (i, rest)) : (tableBytes nbits w).length = opLength i := by
  obtain ⟨n, v, hbytes, hcase⟩ := tableBytes_cases nbits w
  rw [hbytes] at h
  rw [hbytes, length_leBytes]
  have hop := opcode_of_decode_leBytes h
  obtain ⟨fixed, hfixed, -, hlen⟩ := fixedLength_opcode i
  rw [← hop] at hfixed hlen
  obtain hnone | ⟨hload, rfl⟩ | ⟨hload, hn⟩ := hcase
  · cases hfixed.symm.trans hnone
  · exact (opLength_of_decode_loadCharset_word hload h).symm
  · rw [← hlen hload]
    exact Option.some.inj (hn.symm.trans hfixed)

/-- No byte of an opcode-table word is left over. -/
theorem decode_tableBytes {nbits w : Nat} {i : Instr} (h : decodeTableWord nbits w = some i) :
    decode (tableBytes nbits w) = .ok (i, []) := by
  unfold decodeTableWord at h
  split at h
  · next j rest hd =>
    cases h
    have hlen := length_of_decode hd
    rw [length_tableBytes hd] at hlen
    rw [hd, List.eq_nil_of_length_eq_zero (by omega : rest.length = 0)]
  · cases h

theorem tableIssuer_eq {nbits w : Nat} {i : Instr} (h : decodeTableWord nbits w = some i) :
    tableIssuer nbits w = issuer i := by
  simp only [tableIssuer, h]

/-- Taking a placed operation leaves the state it was placed in. -/
theorem placed_then_taken (s : State) (a : Agent) (bs : List Byte) :
    ((((s.withSchedule (a :: s.schedule)).withQueue a bs).withSchedule s.schedule).withQueue a (s.queue a)) = s := by
  cases a <;> rfl

/-- Settles O6: the word is put before what its agent has issued, where it decodes, and taking it restores the state. -/
theorem placedWordIsTheNextOperation : Obligations.PlacedWordIsTheNextOperation := by
  intro s nbits w i hv h
  have hplaced : s.withFetchWord nbits w = (s.withSchedule (issuer i :: s.schedule)).withQueue (issuer i)
      (tableBytes nbits w ++ s.queue (issuer i)) := by
    simp only [State.withFetchWord, placeNext, tableIssuer_eq h]
  have hd := decode_append (decode_tableBytes h) (s.queue (issuer i))
  rw [hplaced, stepRunsScheduledOperation _ (issuer i) s.schedule i (s.queue (issuer i)) (by simpa using hv) (by simp)
    (by simpa using hd) rfl, placed_then_taken]

/-- Settles O15: the decoder evaluates on each string. -/
theorem spelledOutBytesDecode : Obligations.SpelledOutBytesDecode :=
  ⟨rfl, rfl, rfl, rfl, rfl, rfl, rfl, rfl, rfl, rfl⟩

end Sys2Proof

/-! PROOFS. The control registers' spare bits (30_encoding.md R91, R93, R95), colour records (R97, R117) and text cells
(R96, R98). -/

namespace Sys2Proof.Machine

/-! ## Control bits without effect (R91, R93, R95) -/

/-- Two bytes that MODE, CURSOR_CTRL or BM_CTRL, the register at this offset of IO, shows alike: they agree on the bits
that rendering reads there. -/
def shownAlike (off : Nat) (v w : Byte) : Prop :=
  (off = modeReg ∧ v.getLsbD 0 = w.getLsbD 0 ∧ v.getLsbD 3 = w.getLsbD 3 ∧
      (v.getLsbD 0 = true → v.getLsbD 1 = w.getLsbD 1)) ∨
    (off = cursorCtrl ∧ v.getLsbD 0 = w.getLsbD 0) ∨
    (off = bmCtrl ∧ v.toNat % 16 = w.toNat % 16)

/-- The state after a byte write without a side effect: the byte is stored and nothing else happens. -/
structure StoredByte (s : State) (r : Region) (off : Nat) (d : Byte) (t : State) : Prop where
  same : sameButBytes s t
  stored : t.byteAt r off = d
  other : ∀ q p, (q, p) ≠ (r, off) → t.byteAt q p = s.byteAt q p

/-- Any relation that the two bytes stored alternatively at one offset are in, and every byte with itself, holds between
the two states' bytes at every offset. -/
theorem StoredByte.rel {s t u : State} {r : Region} {off : Nat} {v w : Byte} (ht : StoredByte s r off v t)
    (hu : StoredByte s r off w u) (R : Byte → Byte → Prop) (hrefl : ∀ b, R b b) (q : Region) (p : Nat)
    (h : q = r → p = off → R v w) : R (t.byteAt q p) (u.byteAt q p) := by
  by_cases hat : (q, p) = (r, off)
  · obtain ⟨rfl, rfl⟩ := Prod.mk.inj hat
    rw [ht.stored, hu.stored]
    exact h rfl rfl
  · rw [ht.other q p hat, hu.other q p hat]
    exact hrefl _

theorem shownAlike_mode {v w : Byte} (h : shownAlike 0x000 v w) :
    v.getLsbD 0 = w.getLsbD 0 ∧ v.getLsbD 3 = w.getLsbD 3 ∧ (v.getLsbD 0 = true → v.getLsbD 1 = w.getLsbD 1) := by
  simpa [shownAlike] using h

theorem shownAlike_cursorCtrl {v w : Byte} (h : shownAlike 0x010 v w) : v.getLsbD 0 = w.getLsbD 0 := by
  simpa [shownAlike] using h

theorem shownAlike_bmCtrl {v w : Byte} (h : shownAlike 0x100 v w) : v.toNat % 16 = w.toNat % 16 := by
  simpa [shownAlike] using h

/-- States that differ in a control register only, and there by bits that rendering does not read, render alike. -/
theorem SameReads.of_shownAlike {s t u : State} {off : Nat} {v w : Byte} (ht : StoredByte s .io off v t)
    (hu : StoredByte s .io off w u) (h : shownAlike off v w) : SameReads (snapshotOf t) (snapshotOf u) := by
  obtain ⟨tcfg, tsets, -, -, -, -, -, -, tatt⟩ := ht.same
  obtain ⟨ucfg, usets, -, -, -, -, -, -, uatt⟩ := hu.same
  have hrel := ht.rel hu
  exact {
    cfg := ucfg.trans tcfg.symm
    sets := usets.trans tsets.symm
    att := fun r => (uatt r).trans (tatt r).symm
    vram := fun o => (hrel Eq (fun _ => rfl) .vram o nofun).symm
    ramw := fun o _ _ => (hrel Eq (fun _ => rfl) .ramw o nofun).symm
    io := fun o _ h0 h10 h100 => (hrel Eq (fun _ => rfl) .io o fun _ ho => by
      subst ho
      simp [shownAlike, h0, h10, h100] at h).symm
    mode0 := hrel (fun b c => c.getLsbD 0 = b.getLsbD 0) (fun _ => rfl) .io 0 fun _ ho =>
      have ⟨hen, _, _⟩ := shownAlike_mode (ho ▸ h)
      hen.symm
    mode3 := hrel (fun b c => c.getLsbD 3 = b.getLsbD 3) (fun _ => rfl) .io 0 fun _ ho =>
      have ⟨_, hbitmap, _⟩ := shownAlike_mode (ho ▸ h)
      hbitmap.symm
    mode1 := hrel (fun b c => b.getLsbD 0 = true → c.getLsbD 1 = b.getLsbD 1) (fun _ _ => rfl) .io 0 fun _ ho hen =>
      have ⟨_, _, hoverlay⟩ := shownAlike_mode (ho ▸ h)
      (hoverlay hen).symm
    cursor := hrel (fun b c => c.getLsbD 0 = b.getLsbD 0) (fun _ => rfl) .io 0x10 fun _ ho =>
      (shownAlike_cursorCtrl (ho ▸ h)).symm
    bitmap := hrel (fun b c => c.toNat % 16 = b.toNat % 16) (fun _ => rfl) .io 0x100 fun _ ho =>
      (shownAlike_bmCtrl (ho ▸ h)).symm }

/-- A byte write to IO completes, stores its byte and reads it back (R24). -/
theorem exec_writeByte_io (s : State) {off : Nat} {a : Addr} (d : Byte) (hv : configValid s.cfg = true)
    (hm : mapped s .io off a) : ∃ t, exec (.writeByte a d) s = .next t ∧
      exec (.readByte a) t = .next (t.emit (.byte d)) ∧ StoredByte s .io off d t := by
  obtain ⟨t, hx, hread, hself, hother, hsame⟩ := plainByteWrite s .io off a d hv hm nofun
  exact ⟨t, hx, hread, hsame, hself, hother⟩

/-- Writes of two bytes that a control register shows alike are followed by the same frames. -/
theorem controlWrites_present_alike (s : State) {off : Nat} {a : Addr} {v w : Byte} (hv : configValid s.cfg = true)
    (hm : mapped s .io off a) (h : shownAlike off v w) :
    ∃ t u, exec (.writeByte a v) s = .next t ∧ exec (.writeByte a w) s = .next u ∧
      exec (.readByte a) t = .next (t.emit (.byte v)) ∧ ∀ f diag, presents t f diag ↔ presents u f diag := by
  obtain ⟨t, hxt, hread, ht⟩ := exec_writeByte_io s v hv hm
  obtain ⟨u, hxu, -, hu⟩ := exec_writeByte_io s w hv hm
  refine ⟨t, u, hxt, hxu, hread, fun f diag => ?_⟩
  obtain ⟨-, -, tblink, -, -, -, tdraws, -⟩ := ht.same
  obtain ⟨-, -, ublink, -, -, -, udraws, -⟩ := hu.same
  rw [presents_iff, presents_iff, tblink, ublink, tdraws, udraws,
    (SameReads.of_shownAlike ht hu h).compose s.blink s.blink s.draws rfl]

/-- Settles O44: rendering reads no other bit of MODE, and OVERLAY in the text layer only. -/
theorem modeBitsWithoutEffect : Obligations.ModeBitsWithoutEffect := by
  intro s a v w hv hm h0 h3 h1
  exact controlWrites_present_alike s hv hm (.inl ⟨rfl, h0, h3, h1⟩)

/-- Bytes of the same parity have the same bit 0. -/
theorem getLsbD_zero_of_mod_two {v w : Byte} (h : v.toNat % 2 = w.toNat % 2) : v.getLsbD 0 = w.getLsbD 0 := by
  simp only [BitVec.getLsbD, Nat.testBit_zero, h]

/-- Settles O45: of BM_CTRL rendering reads the low four bits, and of CURSOR_CTRL bit 0. -/
theorem controlBitsWithoutEffect : Obligations.ControlBitsWithoutEffect := by
  intro s off a v w hv hm h
  refine controlWrites_present_alike s hv hm ?_
  obtain ⟨rfl, hbits⟩ | ⟨rfl, hbits⟩ := h
  · exact .inr (.inr ⟨rfl, hbits⟩)
  · exact .inr (.inl ⟨rfl, getLsbD_zero_of_mod_two hbits⟩)

/-! ## Colour records (R97, R117) -/

/-- The bus address of an offset inside an attached region is mapped to it (R61). -/
theorem mapped_busAddr (s : State) {r : Region} {off : Nat} (hv : configValid s.cfg = true)
    (ha : attached s.regions r = true) (hl : off < regionLen s.cfg r) : mapped s r off (busAddr s.cfg r off) := by
  obtain ⟨-, hr, -⟩ := (configValid_iff_constraints s.cfg).mp hv
  obtain ⟨-, hfit, -⟩ := hr r
  refine ⟨ha, hl, ?_⟩
  rw [busAddr, BitVec.toNat_ofNat]
  omega

theorem execAll_single {i : Instr} {s t : State} (h : exec i s = .next t) : execAll [i] s = .next t := by
  simp only [execAll, h]

/-- A colour record's long is stored as blue, green, red and a pad of 0 (R97, R117). -/
theorem recordLong_bytes (r g b : Byte) :
    BitVec.ofNat 8 ((recordLong r g b).toNat / 256 ^ 0) = b ∧
      BitVec.ofNat 8 ((recordLong r g b).toNat / 256 ^ 1) = g ∧
      BitVec.ofNat 8 ((recordLong r g b).toNat / 256 ^ 2) = r := by
  have h := longBytes_le32 b g r 0
  simp only [longBytes, byteOf_eq_ofNat, List.cons.injEq] at h
  obtain ⟨hb, hg, hr, -⟩ := h
  exact ⟨hb, hg, hr⟩

/-- A long write of a colour record to IO sets the record (R125, R97). -/
theorem writeLong_sets_record (s : State) {off : Nat} (r g b : Byte) (hv : configValid s.cfg = true)
    (ha : attached s.regions .io = true) (hoff : off + 4 ≤ 0x10000) :
    ∃ t, execAll [.writeLong (busAddr s.cfg .io off) (recordLong r g b)] s = .next t ∧
      recordAt t off = .solid ⟨r, g, b⟩ := by
  obtain ⟨-, -, -, -, hlen⟩ := (configValid_iff_constraints s.cfg).mp hv
  have hm : ∀ k, k < 4 → mapped s .io (off + k) (BitVec.ofNat 32 ((busAddr s.cfg .io off).toNat + k)) := by
    intro k hk
    rw [addr_add_ofNat]
    exact mapped_add s hv .io off k _ (mapped_busAddr s hv ha (by omega)) (by omega)
  obtain ⟨t, hx, hstored, -⟩ := wideWritesStoreTheirBytes s (busAddr s.cfg .io off) (recordLong r g b) _ 4 hv
    (.inr ⟨rfl, rfl⟩)
  have hbyte : ∀ k, k < 4 → t.byteAt .io (off + k) = BitVec.ofNat 8 ((recordLong r g b).toNat / 256 ^ k) :=
    fun k hk => hstored k .io (off + k) hk (hm k hk) nofun
  obtain ⟨hblue, hgreen, hred⟩ := recordLong_bytes r g b
  have h0 : t.byteAt .io off = b := (hbyte 0 (by decide)).trans hblue
  have h1 : t.byteAt .io (off + 1) = g := (hbyte 1 (by decide)).trans hgreen
  have h2 : t.byteAt .io (off + 2) = r := (hbyte 2 (by decide)).trans hred
  exact ⟨t, execAll_single hx, by rw [recordAt, h0, h1, h2]⟩

/-- Settles O54: each sequence is one long write of the record to its entry's offset in IO. -/
theorem paletteSequencesSetTheirEntry : Obligations.PaletteSequencesSetTheirEntry := by
  intro s r g b hv ha
  refine ⟨fun i => writeLong_sets_record s r g b hv ha ?_, fun i => writeLong_sets_record s r g b hv ha ?_,
    fun k j => writeLong_sets_record s r g b hv ha ?_⟩
  · simp only [fgPaletteBase]
    omega
  · simp only [bgPaletteBase]
    omega
  · simp only [lutBase]
    omega

/-! ## Text cells (R96, R98, R170 to R178) -/

@[simp] theorem snapshotOf_byte (s : State) (r : Region) (off : Nat) : (snapshotOf s).byte r off = s.byteAt r off := rfl

@[simp] theorem snapshotOf_read_ramw (s : State) (off n : Nat) :
    (snapshotOf s).read .ramw off n = ramField s off n := rfl

/-- An entry of a resolved palette in IO is its colour record (R97, R221). -/
theorem entry_resolve_io (s : State) {base count i : Nat} (h : i < count) :
    entry (resolve (snapshotOf s) .io base count) i = recordAt s (base + 4 * i) :=
  entry_resolve (snapshotOf s) .io base count i h

/-- The foreground slot of a colour byte, painted: BAKED_FG for index 0, else the palette's colour (R174, R177). -/
theorem paint_foregroundSlot (s : State) (below : Pixel) (col : Byte) :
    paint below (foregroundSlot (fgIdx col) (fgPalette (snapshotOf s)) s.cfg.bakedFg) =
      if col.toNat / 16 = 0 then paint below s.cfg.bakedFg else recordAt s (0x1F40 + 4 * (col.toNat / 16)) := by
  have hlt : col.toNat / 16 < 16 := by have := col.isLt; omega
  rw [fgIdx_eq, foregroundSlot, fgPalette, entry_resolve_io s hlt]
  split <;> rfl

/-- The background slot of a colour byte, painted: nothing under overlay for index 0, else the palette's colour (R174,
R176). -/
theorem paint_backgroundSlot (s : State) (below : Pixel) (overlay : Bool) (col : Byte) :
    paint below (backgroundSlot (bgIdx col) overlay (bgPalette (snapshotOf s))) =
      if overlay = true ∧ col.toNat % 16 = 0 then below else recordAt s (0x1F80 + 4 * (col.toNat % 16)) := by
  rw [bgIdx_eq, backgroundSlot, bgPalette, entry_resolve_io s (Nat.mod_lt _ (by decide))]
  split <;> rfl

/-- A pixel of a cell, painted: the slot that the glyph's bit chooses (R173 to R178). -/
theorem paint_cellPixel (s : State) (below : Pixel) (cs : CharSet) (overlay : Bool) (S r c dx dy : Nat) :
    paint below (cellPixel (snapshotOf s) cs overlay (fgPalette (snapshotOf s)) (bgPalette (snapshotOf s)) S r c dx dy)
      =
      let col := s.byteAt .io (colorPlane + r * S + c)
      if glyphBit (glyphOf cs (s.byteAt .io (charPlane + r * S + c))) dx dy = true then
        if col.toNat / 16 = 0 then paint below s.cfg.bakedFg else recordAt s (0x1F40 + 4 * (col.toNat / 16))
      else if overlay = true ∧ col.toNat % 16 = 0 then below
      else recordAt s (0x1F80 + 4 * (col.toNat % 16)) := by
  simp only [← paint_foregroundSlot, ← paint_backgroundSlot, cellPixel, recolor, snapshotOf_byte, snapshotOf_cfg]
  exact apply_ite (paint below) _ _ _

/-- The grid at glyph pixel (dx, dy) of cell (r, c): the frame pixel belongs to that cell and no other (R178, R179). -/
theorem textGrid_px_cell (sn : Snapshot) (cs : CharSet) (overlay : Bool) {C L r c dx dy x y : Nat} (S : Nat)
    {xOff yOff : Int} (F : Raster) (hr : r < L) (hc : c < C) (hdx : dx < 8) (hdy : dy < 8)
    (hx : (x : Int) = c * 8 + xOff + dx) (hy : (y : Int) = r * 8 + yOff + dy) :
    (textGrid sn cs overlay C L S xOff yOff F).px x y =
      paint (F.px x y) (cellPixel sn cs overlay (fgPalette sn) (bgPalette sn) S r c dx dy) := by
  have hgx : (x : Int) - xOff = ((8 * c + dx : Nat) : Int) := by omega
  have hgy : (y : Int) - yOff = ((8 * r + dy : Nat) : Int) := by omega
  have hcol : (8 * c + dx) / 8 = c ∧ (8 * c + dx) % 8 = dx := by omega
  have hrow : (8 * r + dy) / 8 = r ∧ (8 * r + dy) % 8 = dy := by omega
  simp only [textGrid, hgx, hgy, Int.toNat_natCast, hcol, hrow]
  rw [if_pos (by omega)]

/-- The cursor leaves every pixel outside its rectangle, and all of them while it is not shown (R180). -/
theorem drawCursor_px_outside (s : State) (F : Raster) {x y : Nat} (h : ¬ (cursorShown s ∧ inCursorRect s x y)) :
    (drawCursor (snapshotOf s) s.blink (xOffOf s) (yOffOf s) F).px x y = F.px x y := by
  unfold drawCursor
  split
  · next hshown => exact if_neg fun hrect => h ⟨hshown, hrect⟩
  · rfl

/-- The frame of a TICK that draws the text layer, as a raster: grid and cursor over what lies beneath (R170). -/
def textRaster (s : State) (cs : CharSet) : Raster :=
  drawCursor (snapshotOf s) s.blink (xOffOf s) (yOffOf s)
    (textGrid (snapshotOf s) cs ((s.byteAt .io modeReg).getLsbD 1) (ramField s colsVisible 2)
      (ramField s linesVisible 2) (ramField s lineStride 2) (xOffOf s) (yOffOf s) ⟨beneath s⟩)

/-- The raster that the text layer is drawn over (R154). -/
theorem underText_eq_beneath (s : State) :
    (if bitmapEn ((snapshotOf s).byte .io modeReg) then bitmapLayer (snapshotOf s) blank else blank) =
      ⟨beneath s⟩ := by
  unfold beneath bitmapEn
  rw [snapshotOf_byte]
  split <;> rfl

/-- A TICK that draws the text layer presents its raster, without a diagnostic (R154, R170). -/
theorem compose_of_drawsText {s : State} {cs : CharSet} (h : drawsText s cs) :
    compose (snapshotOf s) s.blink s.draws = (Frame.ofRaster (textRaster s cs), []) := by
  obtain ⟨hatt, htext, hC1, hC2, hL1, hL2, hcs⟩ := h
  obtain ⟨l, hl⟩ := List.head?_eq_some_iff.mp hcs
  have hall : allAttached (snapshotOf s).regions = true := (allAttached_iff _).mpr hatt
  have hgrid : validGrid (ramField s colsVisible 2) (ramField s linesVisible 2) = true := by
    simp [validGrid, hC1, hC2, hL1, hL2]
  have ht : textEn ((snapshotOf s).byte .io modeReg) = true := htext
  simp only [compose, composeRaster, hall, ht, underText_eq_beneath, textLayer, snapshotOf_read_ramw, hgrid,
    snapshotOf_charsets, hl, if_true]
  rfl

/-- Glyph pixel (dx, dy) of cell (r, c) in the text layer, where the cursor does not cover it (R178). -/
theorem textRaster_px_cell (s : State) (cs : CharSet) {r c dx dy x y : Nat} (hr : r < ramField s linesVisible 2)
    (hc : c < ramField s colsVisible 2) (hdx : dx < 8) (hdy : dy < 8) (hx : (x : Int) = c * 8 + xOffOf s + dx)
    (hy : (y : Int) = r * 8 + yOffOf s + dy) (hcur : ¬ (cursorShown s ∧ inCursorRect s x y)) :
    (textRaster s cs).px x y = paint (beneath s x y)
      (cellPixel (snapshotOf s) cs ((s.byteAt .io modeReg).getLsbD 1) (fgPalette (snapshotOf s))
        (bgPalette (snapshotOf s)) (ramField s lineStride 2) r c dx dy) :=
  (drawCursor_px_outside s _ hcur).trans (textGrid_px_cell _ cs _ _ _ hr hc hdx hdy hx hy)

/-- Settles O39: the frame's pixel is the cell's, painted over what lies beneath. -/
theorem textCellPixels : Obligations.TextCellPixels := by
  intro s cs h
  refine ⟨_, (presents_iff s _ _).mpr (compose_of_drawsText h), ?_⟩
  intro r c dx dy x y hr hc hdx hdy hxw hyh hx hy hcur
  rw [Frame.pixel_ofRaster _ x y hxw hyh, textRaster_px_cell s cs hr hc hdx hdy hx hy hcur, paint_cellPixel]
  rfl

end Sys2Proof.Machine

/-! PROOFS. Register access (40_register_access.md): reads and the range query (R120, R122, R124, R126), the side
effects of byte writes in the RAM window (R127 to R131), and word and long writes as byte writes (R123, R125, R134). -/

namespace Sys2Proof.Machine

/-! ## The operations as equations -/

theorem exec_readByte_eq (a : Addr) (s : State) : exec (.readByte a) s = .next (s.emit (.byte (s.busByte a))) := rfl

/-- READ_WORD in the addresses of R66. -/
theorem exec_readWord_eq (a : Addr) (s : State) :
    exec (.readWord a) s =
      .next (s.emit (.word (le16 (s.busByte a) (s.busByte (BitVec.ofNat 32 (a.toNat + 1)))))) := by
  rw [addr_add_ofNat]
  rfl

/-- READ_LONG in the addresses of R66. -/
theorem exec_readLong_eq (a : Addr) (s : State) :
    exec (.readLong a) s =
      .next (s.emit (.long (le32 (s.busByte a) (s.busByte (BitVec.ofNat 32 (a.toNat + 1)))
        (s.busByte (BitVec.ofNat 32 (a.toNat + 2))) (s.busByte (BitVec.ofNat 32 (a.toNat + 3)))))) := by
  simp only [addr_add_ofNat]
  rfl

/-- WRITE_WORD is a byte write of the low byte, then of the high byte (R123). -/
theorem exec_writeWord_bytes (a : Addr) (d : Half) (s : State) :
    exec (.writeWord a d) s = .next (writeByteBus (a + 1) (byteOf d 1) (writeByteBus a (byteOf d 0) s)) := rfl

/-- WRITE_LONG is four byte writes, the low byte first (R125). -/
theorem exec_writeLong_bytes (a : Addr) (d : Long) (s : State) :
    exec (.writeLong a d) s = .next (writeByteBus (a + 3) (byteOf d 3) (writeByteBus (a + 2) (byteOf d 2)
      (writeByteBus (a + 1) (byteOf d 1) (writeByteBus a (byteOf d 0) s)))) := rfl

theorem execAll_writeByte_cons (a : Addr) (d : Byte) (is : List Instr) (s : State) :
    execAll (.writeByte a d :: is) s = execAll is (writeByteBus a d s) := rfl

/-! ## Reads and the range query -/

/-- Settles O16: a mapped address decodes to its region's byte, an unmapped one to nothing. -/
theorem readByteReturnsTheByte : Obligations.ReadByteReturnsTheByte := fun s a hv =>
  ⟨_, exec_readByte_eq a s, fun _ _ hm => State.busByte_mapped s hv hm, State.busByte_unmapped s⟩

/-- Settles O17: the word is put together from the two bus reads. -/
theorem readWordIsTwoByteReads : Obligations.ReadWordIsTwoByteReads := fun s a =>
  ⟨_, _, _, exec_readByte_eq _ s, exec_readByte_eq _ s, exec_readWord_eq a s, by rw [le16_toNat]; omega⟩

/-- Settles O18: the long is put together from the four bus reads. -/
theorem readLongIsFourByteReads : Obligations.ReadLongIsFourByteReads := fun s a =>
  ⟨_, _, _, _, _, exec_readByte_eq _ s, exec_readByte_eq _ s, exec_readByte_eq _ s, exec_readByte_eq _ s,
    exec_readLong_eq a s, by rw [le32_toNat]; omega⟩

/-- Settles O19: the two cases of the range query. -/
theorem queryRangeReturnsTheWindow : Obligations.QueryRangeReturnsTheWindow := by
  intro s r
  rw [exec_queryRange_eq]
  exact ⟨fun h => by rw [if_pos h], fun h => by simp [h]⟩

/-! ## Wide writes as byte writes -/

/-- Settles O28: both sides nest the same byte writes, the first one innermost. -/
theorem wideWritesAreByteWrites : Obligations.WideWritesAreByteWrites := by
  constructor
  · intro s a d
    simp only [exec_writeWord_bytes, execAll_writeByte_cons, addr_add_ofNat, byteOf_eq_ofNat, Nat.reducePow,
      Nat.div_one]
    rfl
  · intro s a d
    simp only [exec_writeLong_bytes, execAll_writeByte_cons, addr_add_ofNat, byteOf_eq_ofNat, Nat.reducePow,
      Nat.div_one]
    rfl

/-! ## Fields of the RAM window, byte by byte -/

theorem ramField_succ (s : State) (off n : Nat) :
    ramField s off (n + 1) = (s.byteAt .ramw off).toNat + 256 * ramField s (off + 1) n := rfl

theorem ramField_two (s : State) (off : Nat) :
    ramField s off 2 = (s.byteAt .ramw off).toNat + 256 * (s.byteAt .ramw (off + 1)).toNat := rfl

/-- A field depends on its own bytes only. -/
theorem ramField_congr {s t : State} {off n : Nat}
    (h : ∀ p, off ≤ p → p < off + n → t.byteAt .ramw p = s.byteAt .ramw p) : ramField t off n = ramField s off n := by
  induction n generalizing off with
  | zero => rfl
  | succ n ih =>
    rw [ramField_succ, ramField_succ, h off le_rfl (by omega), ih fun p h1 h2 => h p (by omega) (by omega)]

/-- A field write of the core leaves every byte outside the field. -/
theorem setRamField_byteAt_other (s : State) {off n : Nat} (v : Nat) {q : Region} {p : Nat}
    (h : q ≠ .ramw ∨ p < off ∨ off + n ≤ p) : (setRamField s off n v).byteAt q p = s.byteAt q p := by
  refine (setRamField_byte s off n v q p).trans (if_neg ?_)
  rintro ⟨hq, hlo, hhi, -⟩
  rcases h with h | h
  · exact h hq
  · omega

@[simp] theorem movementEvent_byteAt (s : State) (q : Region) (p : Nat) :
    (movementEvent s).byteAt q p = s.byteAt q p := rfl

@[simp] theorem movementEvent_ramField (s : State) (off n : Nat) :
    ramField (movementEvent s) off n = ramField s off n := rfl

/-- The RAM window holds every register field where it is mapped at all (R10, R23). -/
theorem ramw_holds_registers {s : State} {off : Nat} {a : Addr} (hv : configValid s.cfg = true)
    (hm : mapped s .ramw off a) : attached s.regions .ramw = true ∧ 0x12 ≤ regionLen s.cfg .ramw := by
  obtain ⟨-, -, -, hlen, -⟩ := (configValid_iff_constraints s.cfg).mp hv
  obtain ⟨hatt, -⟩ := hm
  exact ⟨hatt, hlen⟩

/-! ## RecomputePos (R130) -/

/-- The stored CURSOR_POS is the offset that the stored base, row, stride and column give (R130). -/
def posIsCurrent (s : State) : Prop := ramField s cursorPos 4 = linearOffset s

/-- RecomputePos leaves every field apart from CURSOR_POS. -/
theorem recomputePos_ramField (s : State) {off n : Nat} (h : off + n ≤ 0x04 ∨ 0x08 ≤ off) :
    ramField (recomputePos s) off n = ramField s off n :=
  ramField_setRamField_other s cursorPos 4 _ off n h

/-- RecomputePos reads none of what it writes. -/
theorem recomputePos_linearOffset (s : State) : linearOffset (recomputePos s) = linearOffset s := by
  unfold linearOffset
  rw [recomputePos_ramField s (.inl (by decide)), recomputePos_ramField s (.inr (by decide)),
    recomputePos_ramField s (.inr (by decide)), recomputePos_ramField s (.inr (by decide))]

theorem recomputePos_posIsCurrent (s : State) (ha : attached s.regions .ramw = true)
    (hl : 0x12 ≤ regionLen s.cfg .ramw) : posIsCurrent (recomputePos s) := by
  have hfit : linearOffset s % 256 ^ 4 = linearOffset s := Nat.mod_mod _ _
  unfold posIsCurrent
  rw [recomputePos_linearOffset, ← hfit]
  exact ramField_setRamField s cursorPos 4 (linearOffset s) (by simp only [cursorPos]; omega) ha

theorem posIsCurrent_movementEvent {s : State} (h : posIsCurrent s) : posIsCurrent (movementEvent s) := h

/-! ## ClampCol and ClampRow (R128, R129) -/

/-- The field at `f` is the cursor's column or row, and the field at `n` the count of visible cells it is clamped to. -/
def cursorField (f n : Nat) : Prop := f = 0x0E ∧ n = 0x08 ∨ f = 0x10 ∧ n = 0x0A

/-- `ClampCol` and `ClampRow` as one operation (R129). -/
def clampField (f n : Nat) (s : State) : State := setRamField s f 2 (clampTo (ramField s f 2) (ramField s n 2))

theorem clampCol_eq (s : State) : clampCol s = clampField 0x0E 0x08 s := rfl

theorem clampRow_eq (s : State) : clampRow s = clampField 0x10 0x0A s := rfl

/-- The clamp on integers, as R128 writes it. -/
theorem clampTo_cast (v visible : Nat) : (clampTo v visible : Int) = max 0 (min (v : Int) ((visible : Int) - 1)) := by
  unfold clampTo
  omega

/-- Clamping after each byte is clamping the word, if the old high byte is at most the new one: where the first clamp
takes effect, the second takes the word to the same bound (R134). -/
theorem clampTo_bytewise {low old new visible : Nat} (hlow : low < 256) (h : old ≤ new) :
    clampTo (clampTo (low + 256 * old) visible % 256 + 256 * new) visible = clampTo (low + 256 * new) visible := by
  simp only [clampTo_eq]
  omega

theorem clampField_ramField (s : State) {f n : Nat} (ha : attached s.regions .ramw = true)
    (hl : f + 2 ≤ regionLen s.cfg .ramw) :
    ramField (clampField f n s) f 2 = clampTo (ramField s f 2) (ramField s n 2) := by
  have hlt : ramField s f 2 < 256 ^ 2 := regionRead_lt ..
  rw [clampField, ramField_setRamField s f 2 _ hl ha, Nat.mod_eq_of_lt]
  rw [clampTo_eq]
  omega

/-- A store to the column or the row clamps it, recomputes CURSOR_POS and restarts the blink (R131). -/
theorem sideEffects_cursorField (s : State) {f n off : Nat} (hf : cursorField f n) (hlo : f ≤ off)
    (hhi : off < f + 2) : sideEffects .ramw off s = movementEvent (recomputePos (clampField f n s)) := by
  unfold sideEffects
  simp only [ne_eq, not_true_eq_false, if_false, cursorCol, cursorRow]
  obtain ⟨rfl, rfl⟩ | ⟨rfl, rfl⟩ := hf
  · rw [if_pos ⟨hlo, hhi⟩, clampCol_eq]
  · rw [if_neg (by omega), if_pos ⟨hlo, hhi⟩, clampRow_eq]

/-! ## Byte writes -/

/-- A store attaches and detaches no region. -/
theorem attached_store (s : State) (r : Region) (off : Nat) (d : Byte) (q : Region) :
    attached (s.withRegions (regionWriteByte s.cfg r off d s.regions)).regions q = attached s.regions q :=
  attached_writeByte ..

/-- A byte write changes region bytes and the blink state only. -/
theorem writeByteBus_sameButBytes (s : State) (a : Addr) (d : Byte) :
    sameButBytes { s with blink := (writeByteBus a d s).blink } (writeByteBus a d s) := by
  obtain ⟨hcfg, hsets, hcpu, hhost, hsched, hdraws, hout, hatt⟩ := writeByteBus_frame s a d
  exact ⟨hcfg, hsets, rfl, hcpu, hhost, hsched, hdraws, hout, hatt⟩

/-- A byte write to CURSOR_COL or CURSOR_ROW restarts the blink, no other one does (R131). -/
theorem writeByteBus_blink (s : State) {r : Region} {off : Nat} {a : Addr} (d : Byte) (hv : configValid s.cfg = true)
    (hm : mapped s r off a) : (writeByteBus a d s).blink =
      if r = .ramw ∧ 0x0E ≤ off ∧ off < 0x12 then ⟨.visible, s.cfg.blinkRate⟩ else s.blink := by
  rw [writeByteBus_mapped s r off a d hv hm, sideEffects_blink]
  rfl

/-- A byte write to SCREEN_BASE is its store, then RecomputePos (R130). -/
theorem writeByteBus_screenBase (s : State) {off : Nat} {a : Addr} (d : Byte) (hv : configValid s.cfg = true)
    (hm : mapped s .ramw off a) (hoff : off < 0x04) :
    writeByteBus a d s = recomputePos (s.withRegions (regionWriteByte s.cfg .ramw off d s.regions)) := by
  rw [writeByteBus_mapped s .ramw off a d hv hm, sideEffects_screenBase _ hoff]

/-- Settles O23: the store changes its byte, RecomputePos CURSOR_POS, and SCREEN_BASE restarts no blink. -/
theorem screenBaseWrite : Obligations.ScreenBaseWrite := by
  intro s off a d hv hm hoff
  have hblink : (writeByteBus a d s).blink = s.blink := by
    rw [writeByteBus_blink s d hv hm, if_neg (by omega)]
  have hsame := writeByteBus_sameButBytes s a d
  rw [hblink] at hsame
  refine ⟨writeByteBus a d s, rfl, writeByteBus_byteAt_addressed s d hv hm fun _ => .inl hoff, hsame, ?_⟩
  intro q p hne hpos
  rw [writeByteBus_screenBase s d hv hm hoff, recomputePos_byteAt _ hpos, store_byteAt s .ramw off a d hm,
    if_neg (by simpa using hne)]

/-! ## Byte writes to the column and the row -/

/-- The column or row at `f` after its byte at `off` is stored, before the clamp. -/
def fieldStored (s : State) (f off : Nat) (d : Byte) : Nat :=
  if off = f then d.toNat + 256 * (s.byteAt .ramw (f + 1)).toNat else (s.byteAt .ramw f).toNat + 256 * d.toNat

theorem fieldStored_low (s : State) (f : Nat) (d : Byte) :
    fieldStored s f f d = d.toNat + 256 * (ramField s f 2 / 256) := by
  have hb := (s.byteAt .ramw f).isLt
  rw [fieldStored, if_pos rfl, ramField_two]
  omega

theorem fieldStored_high (s : State) (f : Nat) (d : Byte) :
    fieldStored s f (f + 1) d = ramField s f 2 % 256 + 256 * d.toNat := by
  have hb := (s.byteAt .ramw f).isLt
  rw [fieldStored, if_neg (by omega), ramField_two]
  omega

section
variable (s : State) {f n off : Nat} {a : Addr} (d : Byte)

theorem store_ramField_self (hm : mapped s .ramw off a) (hlo : f ≤ off) (hhi : off < f + 2) :
    ramField (s.withRegions (regionWriteByte s.cfg .ramw off d s.regions)) f 2 = fieldStored s f off d := by
  rw [ramField_two, store_byteAt s .ramw off a d hm, store_byteAt s .ramw off a d hm, fieldStored]
  obtain rfl | rfl : off = f ∨ off = f + 1 := by omega
  · simp
  · simp

theorem store_ramField_other (hm : mapped s .ramw off a) {p k : Nat} (h : off < p ∨ p + k ≤ off) :
    ramField (s.withRegions (regionWriteByte s.cfg .ramw off d s.regions)) p k = ramField s p k :=
  ramField_congr fun q h1 h2 => by
    rw [store_byteAt s .ramw off a d hm, if_neg]
    rintro ⟨-, rfl⟩
    omega

theorem writeByteBus_cursorField (hv : configValid s.cfg = true) (hf : cursorField f n) (hm : mapped s .ramw off a)
    (hlo : f ≤ off) (hhi : off < f + 2) :
    writeByteBus a d s = movementEvent (recomputePos
      (clampField f n (s.withRegions (regionWriteByte s.cfg .ramw off d s.regions)))) := by
  rw [writeByteBus_mapped s .ramw off a d hv hm, sideEffects_cursorField _ hf hlo hhi]

/-- A byte write to the column or the row leaves it clamped to the count as stored (R128, R129). -/
theorem writeByteBus_cursorField_ramField (hv : configValid s.cfg = true) (hf : cursorField f n)
    (hm : mapped s .ramw off a) (hlo : f ≤ off) (hhi : off < f + 2) :
    ramField (writeByteBus a d s) f 2 = clampTo (fieldStored s f off d) (ramField s n 2) := by
  obtain ⟨hatt, hlen⟩ := ramw_holds_registers hv hm
  obtain ⟨hpos, hend, hcount⟩ : 0x08 ≤ f ∧ f + 2 ≤ 0x12 ∧ n + 2 ≤ f := by
    unfold cursorField at hf
    omega
  have hatt' := (attached_store s .ramw off d .ramw).trans hatt
  rw [writeByteBus_cursorField s d hv hf hm hlo hhi, movementEvent_ramField, recomputePos_ramField _ (.inr hpos),
    clampField_ramField _ hatt' (hend.trans hlen), store_ramField_self s d hm hlo hhi,
    store_ramField_other s d hm (.inr (hcount.trans hlo))]

/-- A byte write to the column or the row changes no byte outside it and CURSOR_POS. -/
theorem writeByteBus_cursorField_byteAt (hv : configValid s.cfg = true) (hf : cursorField f n)
    (hm : mapped s .ramw off a) (hlo : f ≤ off) (hhi : off < f + 2) {q : Region} {p : Nat}
    (h : q ≠ .ramw ∨ p < 0x04 ∨ 0x08 ≤ p ∧ p < f ∨ f + 2 ≤ p) : (writeByteBus a d s).byteAt q p = s.byteAt q p := by
  have hpos : 0x08 ≤ f := by
    unfold cursorField at hf
    omega
  have hout : q ≠ .ramw ∨ p < f ∨ f + 2 ≤ p := h.imp_right (by omega)
  have hunaddressed : ¬ (q = .ramw ∧ p = off) := by
    rintro ⟨hq, rfl⟩
    have := hout.resolve_left (not_not_intro hq)
    omega
  rw [writeByteBus_cursorField s d hv hf hm hlo hhi, movementEvent_byteAt,
    recomputePos_byteAt _ (h.imp_right (by omega)), clampField, setRamField_byteAt_other _ _ hout,
    store_byteAt s .ramw off a d hm, if_neg hunaddressed]

/-- A byte write to the column or the row restarts the blink, whatever it stores (R131). -/
theorem writeByteBus_cursorField_blink (hv : configValid s.cfg = true) (hf : cursorField f n)
    (hm : mapped s .ramw off a) (hlo : f ≤ off) (hhi : off < f + 2) :
    (writeByteBus a d s).blink = ⟨.visible, s.cfg.blinkRate⟩ := by
  unfold cursorField at hf
  rw [writeByteBus_blink s d hv hm, if_pos ⟨rfl, by omega, by omega⟩]

/-- Everything a byte write to the column or the row does, CURSOR_POS apart (R128, R129, R131). -/
theorem exec_writeByte_cursorField (hv : configValid s.cfg = true) (hf : cursorField f n) (hm : mapped s .ramw off a)
    (hlo : f ≤ off) (hhi : off < f + 2) :
    ∃ t, exec (.writeByte a d) s = .next t ∧
      (ramField t f 2 : Int) = max 0 (min (fieldStored s f off d : Int) ((ramField s n 2 : Int) - 1)) ∧
      (∀ q p, (q ≠ .ramw ∨ p < 0x04 ∨ 0x08 ≤ p ∧ p < f ∨ f + 2 ≤ p) → t.byteAt q p = s.byteAt q p) ∧
      t.blink = ⟨.visible, s.cfg.blinkRate⟩ ∧ sameButBytes { s with blink := t.blink } t :=
  ⟨writeByteBus a d s, rfl,
    by rw [writeByteBus_cursorField_ramField s d hv hf hm hlo hhi, clampTo_cast],
    fun _ _ => writeByteBus_cursorField_byteAt s d hv hf hm hlo hhi,
    writeByteBus_cursorField_blink s d hv hf hm hlo hhi, writeByteBus_sameButBytes s a d⟩

end

theorem fieldStored_cast (s : State) (f off : Nat) (d : Byte) :
    (fieldStored s f off d : Int) =
      if off = f then (d.toNat + 256 * (s.byteAt .ramw (f + 1)).toNat : Int)
      else ((s.byteAt .ramw f).toNat + 256 * d.toNat : Int) := by
  by_cases h : off = f
  · simp [fieldStored, h]
  · simp [fieldStored, h]

/-- Settles O25: the cursor field of the column. -/
theorem cursorColumnWrite : Obligations.CursorColumnWrite := by
  intro s off a d hv hm hlo hhi
  have hwrite := exec_writeByte_cursorField s d hv (.inl ⟨rfl, rfl⟩) hm hlo hhi
  rwa [fieldStored_cast] at hwrite

/-- Settles O26: the cursor field of the row. -/
theorem cursorRowWrite : Obligations.CursorRowWrite := by
  intro s off a d hv hm hlo hhi
  have hwrite := exec_writeByte_cursorField s d hv (.inr ⟨rfl, rfl⟩) hm hlo hhi
  rwa [fieldStored_cast] at hwrite

/-- After a byte write to SCREEN_BASE, CURSOR_COL or CURSOR_ROW the stored CURSOR_POS is current (R130). -/
theorem writeByteBus_posIsCurrent (s : State) {off : Nat} {a : Addr} (d : Byte) (hv : configValid s.cfg = true)
    (hm : mapped s .ramw off a) (hoff : off < 0x04 ∨ 0x0E ≤ off ∧ off < 0x12) : posIsCurrent (writeByteBus a d s) := by
  obtain ⟨hatt, hlen⟩ := ramw_holds_registers hv hm
  have hatt' := (attached_store s .ramw off d .ramw).trans hatt
  rcases hoff with hbase | hcursor
  · rw [writeByteBus_screenBase s d hv hm hbase]
    exact recomputePos_posIsCurrent _ hatt' hlen
  · obtain ⟨f, n, hf, hlo, hhi⟩ : ∃ f n, cursorField f n ∧ f ≤ off ∧ off < f + 2 := by
      by_cases hcol : off < 0x10
      · exact ⟨0x0E, 0x08, .inl ⟨rfl, rfl⟩, hcursor.1, hcol⟩
      · exact ⟨0x10, 0x0A, .inr ⟨rfl, rfl⟩, by omega, hcursor.2⟩
    rw [writeByteBus_cursorField s d hv hf hm hlo hhi]
    exact posIsCurrent_movementEvent
      (recomputePos_posIsCurrent _ ((setRamField_attached _ _ _ _ _).trans hatt') hlen)

/-- Settles O24: these writes end with RecomputePos; a write to the stride is its store alone. -/
theorem cursorPosIsRecomputed : Obligations.CursorPosIsRecomputed := by
  intro s off a d hv hm
  refine ⟨writeByteBus a d s, rfl, writeByteBus_posIsCurrent s d hv hm, fun hstride => ?_⟩
  rw [writeByteBus_plain s d hv hm fun _ => .inl (by omega), store_ramField_other s d hm (.inr (by omega))]

/-! ## Word writes to the column and the row (R131, R134) -/

/-- The byte after a byte of a region is mapped next to it, and stays so after a write. -/
theorem mapped_next_writeByteBus (s : State) {r : Region} {off : Nat} {a : Addr} (b : Addr) (d : Byte)
    (hv : configValid s.cfg = true) (hm : mapped s r off a) (hl : off + 1 < regionLen s.cfg r) :
    mapped (writeByteBus b d s) r (off + 1) (a + 1) :=
  (mapped_writeByteBus s b d r (off + 1) (a + 1)).mpr (mapped_add s hv r off 1 a hm hl)

/-- The low and then the high byte written to a cursor field at `f`: the clamp applied byte by byte (R134). -/
theorem writeWord_cursorField_ramField (s : State) {f n : Nat} {a : Addr} (lo hi : Byte)
    (hv : configValid s.cfg = true) (hf : cursorField f n) (hm : mapped s .ramw f a) :
    ramField (writeByteBus (a + 1) hi (writeByteBus a lo s)) f 2 =
      clampTo (clampTo (lo.toNat + 256 * (ramField s f 2 / 256)) (ramField s n 2) % 256 + 256 * hi.toNat)
        (ramField s n 2) := by
  obtain ⟨-, hlen⟩ := ramw_holds_registers hv hm
  obtain ⟨hend, hafter, hbefore⟩ : f + 1 < 0x12 ∧ 0x08 ≤ n ∧ n + 2 ≤ f := by
    unfold cursorField at hf
    omega
  have hcount : ramField (writeByteBus a lo s) n 2 = ramField s n 2 := ramField_congr fun p h1 h2 =>
    writeByteBus_cursorField_byteAt s lo hv hf hm le_rfl (by omega) (.inr (.inr (.inl (by omega))))
  have hnext := mapped_next_writeByteBus s a lo hv hm (hend.trans_le hlen)
  rw [writeByteBus_cursorField_ramField _ hi (by rwa [writeByteBus_cfg]) hf hnext (by omega) (by omega),
    fieldStored_high, hcount, writeByteBus_cursorField_ramField s lo hv hf hm le_rfl (by omega), fieldStored_low]

/-- A word read of a field of the RAM window returns the field (R122). -/
theorem busWord_eq_ramField (s : State) {f : Nat} {a : Addr} (hv : configValid s.cfg = true) (hm : mapped s .ramw f a)
    (hl : f + 1 < regionLen s.cfg .ramw) : (le16 (s.busByte a) (s.busByte (a + 1))).toNat = ramField s f 2 := by
  have hnext : mapped s .ramw (f + 1) (a + 1) := mapped_add s hv .ramw f 1 a hm hl
  rw [State.busByte_mapped s hv hm, State.busByte_mapped s hv hnext, le16_toNat, ramField_two]

/-- Settles O27: the byte writes by the side effects' cases; of a word write the second byte restarts the blink. -/
theorem cursorWritesRestartTheBlink : Obligations.CursorWritesRestartTheBlink := by
  intro s r off a hv hm
  refine ⟨fun d => ⟨_, rfl, writeByteBus_blink s d hv hm⟩, ?_⟩
  rintro rfl hoff d
  obtain ⟨-, hlen⟩ := ramw_holds_registers hv hm
  have hnext := mapped_next_writeByteBus s a (byteOf d 0) hv hm (by omega)
  refine ⟨_, exec_writeWord_bytes a d s, ?_⟩
  rw [writeByteBus_blink _ _ (by rwa [writeByteBus_cfg]) hnext, if_pos ⟨rfl, by omega, by omega⟩, writeByteBus_cfg]

/-- Settles O30: the word read returns the field that the two byte writes leave. -/
theorem cursorWordRoundTrip : Obligations.CursorWordRoundTrip := by
  intro s f n a v hv hf hm
  obtain ⟨-, hlen⟩ := ramw_holds_registers hv hm
  have hlow : (byteOf v 0).toNat = v.toNat % 256 := by simp [byteOf_toNat]
  have hhigh : (byteOf v 1).toNat = v.toNat / 256 := by
    have := v.isLt
    rw [byteOf_toNat]
    omega
  have hfield := writeWord_cursorField_ramField s (byteOf v 0) (byteOf v 1) hv hf hm
  rw [hlow, hhigh] at hfield
  have hend : f + 1 < 0x12 := by omega
  have hread := busWord_eq_ramField (writeByteBus (a + 1) (byteOf v 1) (writeByteBus a (byteOf v 0) s))
    (by rwa [writeByteBus_cfg, writeByteBus_cfg]) (by rwa [mapped_writeByteBus, mapped_writeByteBus])
    (by rw [writeByteBus_cfg, writeByteBus_cfg]; exact hend.trans_le hlen)
  have hword := hread.trans hfield
  refine ⟨_, _, exec_writeWord_bytes a v s, rfl, hword, fun hold => ?_⟩
  rw [hword, clampTo_bytewise (Nat.mod_lt _ (by decide)) hold, Nat.mod_add_div, clampTo_cast]

end Sys2Proof.Machine

/-! PROOFS. The frame composer (41_frame_composer.md): the diagnostics of a TICK (R155, R171, R183, R281), frames without
a layer (R153, R154), repeated TICKs (R226), and the layers as the rules' own loops of FrameWrite (R151, R152, R170, R178
to R180, R200). -/

namespace Sys2Proof.Machine

/-! ## The loops at one pixel of the frame (R152) -/

/-- Two nested loops of which only the turn (`i`, `j`) = (`ki`, `kj`) can touch a pixel. -/
theorem forUpTo_nested_single (n m : Nat) (ki kj : Int) (body : Nat → Nat → Canvas → Canvas) (F : Canvas) (X Y : Int)
    (q : Pixel → Pixel)
    (h : ∀ i j G, body j i G X Y = if (i : Int) = ki ∧ (j : Int) = kj then q (G X Y) else G X Y) :
    forUpTo m (fun j => forUpTo n (body j)) F X Y =
      if (0 ≤ kj ∧ kj < m) ∧ 0 ≤ ki ∧ ki < n then q (F X Y) else F X Y := by
  rw [forUpTo_single m kj _ F X Y fun p => if 0 ≤ ki ∧ ki < n then q p else p]
  · exact (ite_and ..).symm
  · intro j G _
    by_cases hj : (j : Int) = kj
    · rw [if_pos hj]
      exact forUpTo_single n ki (body j) G X Y q fun i G' _ => by simp only [h, hj, and_true]
    · rw [if_neg hj, forUpTo_single n ki (body j) G X Y id fun i G' _ => by simp [h, hj]]
      exact ite_self _

/-- A `w` × `h` block of FrameWrites with its top left corner at (X, Y): the pixel belongs to one write or to none. -/
theorem blockLoop_px (w h : Nat) (X Y : Int) (p : Nat → Nat → Pixel) (F : Canvas) {x y : Nat} (hx : x < 640)
    (hy : y < 480) :
    forUpTo h (fun j => forUpTo w fun i G => frameWrite G (X + i) (Y + j) (p i j)) F x y =
      if X ≤ x ∧ (x : Int) < X + w ∧ Y ≤ y ∧ (y : Int) < Y + h then
        paint (F x y) (p ((x : Int) - X).toNat ((y : Int) - Y).toNat)
      else F x y := by
  rw [forUpTo_nested_single w h (x - X) (y - Y) (fun j i G => frameWrite G (X + i) (Y + j) (p i j)) F x y
    fun below => paint below (p ((x : Int) - X).toNat ((y : Int) - Y).toNat)]
  · exact if_congr (by omega) rfl rfl
  · intro i j G
    rw [frameWrite_px G _ _ _ x y hx hy]
    by_cases hij : (i : Int) = x - X ∧ (j : Int) = y - Y
    · obtain ⟨hi, hj⟩ := hij
      rw [if_pos (by omega), if_pos ⟨hi, hj⟩, ← hi, ← hj, Int.toNat_natCast, Int.toNat_natCast]
    · rw [if_neg hij, if_neg (by omega)]

theorem drawGlyphLoop_px (g : Glyph) (X Y : Int) (p0 p1 : Pixel) (F : Canvas) {x y : Nat} (hx : x < 640)
    (hy : y < 480) :
    drawGlyphLoop g X Y p0 p1 F x y =
      if X ≤ x ∧ (x : Int) < X + 8 ∧ Y ≤ y ∧ (y : Int) < Y + 8 then
        paint (F x y) (if glyphBit g ((x : Int) - X).toNat ((y : Int) - Y).toNat then p1 else p0)
      else F x y :=
  blockLoop_px 8 8 X Y (fun i j => if glyphBit g i j then p1 else p0) F hx hy

/-! ## Each layer agrees with its loop (R151, R170, R178 to R180, R200) -/

/-- The raster and the canvas hold the same pixel everywhere in the frame. -/
def Raster.agrees (R : Raster) (F : Canvas) : Prop := ∀ x y : Nat, x < 640 → y < 480 → R.px x y = F x y

theorem agrees_placeholder (draw : Nat) :
    (placeholder draw).agrees fun x y => (placeholder draw).px x.toNat y.toNat := fun _ _ _ _ => rfl

section
variable {R : Raster} {F : Canvas} (h : R.agrees F)
include h

theorem Raster.agrees.bitmapLayer (sn : Snapshot) : (bitmapLayer sn R).agrees (bitmapLoop sn F) := by
  intro x y hx hy
  unfold Machine.bitmapLayer bitmapLoop
  by_cases hen : bmEn (sn.byte .io bmCtrl) = true
  · have hloop := blockLoop_px (sn.read .io bmWidth 2) (sn.read .io bmHeight 2) 0 0 (fun i j =>
      entry (lutBank sn (lutSel (sn.byte .io bmCtrl)))
        (sn.byte .vram (sn.read .io bmStart 4 + j * sn.read .io bmWidth 2 + i)).toNat) F hx hy
    simp only [Int.zero_add, Int.sub_zero, Int.toNat_natCast] at hloop
    simp only [hen, if_true, hloop, h x y hx hy]
    exact if_congr (by omega) rfl rfl
  · simpa [hen] using h x y hx hy

theorem Raster.agrees.drawCursor (sn : Snapshot) (b : Blink) (xOff yOff : Int) :
    (drawCursor sn b xOff yOff R).agrees (drawCursorLoop sn b xOff yOff F) := by
  intro x y hx hy
  unfold Machine.drawCursor drawCursorLoop
  by_cases hshown : cursorEn (sn.byte .io cursorCtrl) = true ∧ b.phase = .visible
  · simp only [if_pos hshown, h x y hx hy]
    exact (blockLoop_px 8 8 _ _ (fun _ _ => .solid sn.cfg.cursorColor) F hx hy).symm
  · simpa only [if_neg hshown] using h x y hx hy

/-- A frame pixel lies in cell (r, c) exactly when r and c are its grid coordinates divided by 8 (R178, R179). -/
theorem Raster.agrees.textGrid (sn : Snapshot) (cs : CharSet) (overlay : Bool) (C L S : Nat) (xOff yOff : Int) :
    (textGrid sn cs overlay C L S xOff yOff R).agrees (textGridLoop sn cs overlay C L S xOff yOff F) := by
  intro x y hx hy
  unfold textGridLoop
  rw [forUpTo_nested_single C L ((x - xOff) / 8) ((y - yOff) / 8) _ F x y fun below =>
    paint below (cellPixel sn cs overlay (fgPalette sn) (bgPalette sn) S (((y : Int) - yOff).toNat / 8)
      (((x : Int) - xOff).toNat / 8) (((x : Int) - xOff).toNat % 8) (((y : Int) - yOff).toNat % 8))]
  · simp only [Machine.textGrid, h x y hx hy]
    exact if_congr (by omega) rfl rfl
  · intro c r G
    simp only [drawGlyphLoop_px _ _ _ _ _ G hx hy]
    by_cases hcell : (c : Int) = (x - xOff) / 8 ∧ (r : Int) = (y - yOff) / 8
    · have ⟨hc, hr⟩ := hcell
      have hcol : ((x : Int) - xOff).toNat / 8 = c := by omega
      have hdx : ((x : Int) - xOff).toNat % 8 = ((x : Int) - ((c : Int) * 8 + xOff)).toNat := by omega
      have hrow : ((y : Int) - yOff).toNat / 8 = r := by omega
      have hdy : ((y : Int) - yOff).toNat % 8 = ((y : Int) - ((r : Int) * 8 + yOff)).toNat := by omega
      rw [if_pos (by omega), if_pos hcell, hcol, hdx, hrow, hdy]
      rfl
    · rw [if_neg hcell, if_neg (by omega)]

/-- Both text layers test the grid, then the character set, and give the same reason (R170, R171, R183). -/
theorem Raster.agrees.textLayer (sn : Snapshot) (b : Blink) (overlay : Bool) (draw : Nat) :
    (textLayer sn b overlay draw R).1.agrees (textLoop sn b overlay draw F).1 ∧
      (textLayer sn b overlay draw R).2 = (textLoop sn b overlay draw F).2 := by
  unfold Machine.textLayer textLoop
  by_cases hgrid : validGrid (sn.read .ramw colsVisible 2) (sn.read .ramw linesVisible 2) = true
  · simp only [hgrid, if_true]
    cases sn.charsets with
    | nil => exact ⟨agrees_placeholder draw, rfl⟩
    | cons cs l => exact ⟨(h.textGrid sn cs overlay _ _ _ _ _).drawCursor sn b _ _, rfl⟩
  · simp only [hgrid]
    exact ⟨agrees_placeholder draw, rfl⟩

end

/-- The two composers run the same layers in the same order (R151, R154, R155). -/
theorem composeRaster_agrees (sn : Snapshot) (b : Blink) (draw : Nat) :
    (composeRaster sn b draw).1.agrees (composeLoop sn b draw).1 ∧
      (composeRaster sn b draw).2 = (composeLoop sn b draw).2 := by
  unfold composeRaster composeLoop
  by_cases hall : allAttached sn.regions = true
  · have hblank : blank.agrees fun _ _ => .transparent := fun _ _ _ _ => rfl
    have hunder : (if bitmapEn (sn.byte .io modeReg) then bitmapLayer sn blank else blank).agrees
        (if bitmapEn (sn.byte .io modeReg) then bitmapLoop sn fun _ _ => .transparent else fun _ _ => .transparent) := by
      split
      · exact hblank.bitmapLayer sn
      · exact hblank
    simp only [hall, if_true]
    split
    · exact hunder.textLayer ..
    · exact ⟨hunder, rfl⟩
  · simp only [hall]
    exact ⟨agrees_placeholder draw, rfl⟩

/-- Settles O43: layer by layer, the raster agrees with the loops' canvas at every pixel of the frame. -/
theorem framesAreTheRulesLoops : Obligations.FramesAreTheRulesLoops := by
  intro sn b k
  obtain ⟨hpx, hdiag⟩ := composeRaster_agrees sn b k
  exact ⟨hdiag, fun x y hx hy => (Frame.pixel_ofRaster _ x y hx hy).trans (hpx x y hx hy)⟩

/-! ## The diagnostics of a compose (R155, R171, R183, R281, R284) -/

theorem validGrid_iff (C L : Nat) : validGrid C L = true ↔ 1 ≤ C ∧ C ≤ 128 ∧ 1 ≤ L ∧ L ≤ 64 := by
  simp [validGrid, and_assoc]

theorem compose_of_unattached {sn : Snapshot} (h : allAttached sn.regions = false) (b : Blink) (draw : Nat) :
    compose sn b draw = (Frame.ofRaster (placeholder draw), [.noStorage]) := by
  simp [compose, composeRaster, h]

/-- Without a text layer the frame is what the bitmap layer leaves, and there is no diagnostic (R154). -/
theorem compose_of_noText {sn : Snapshot} (hall : allAttached sn.regions = true)
    (htext : textEn (sn.byte .io modeReg) = false) (b : Blink) (draw : Nat) :
    compose sn b draw =
      (Frame.ofRaster (if bitmapEn (sn.byte .io modeReg) then bitmapLayer sn blank else blank), []) := by
  simp [compose, composeRaster, hall, htext]

/-- The reasons of a compose that runs the text layer are the text layer's (R170). -/
theorem compose_diag_of_text {sn : Snapshot} (hall : allAttached sn.regions = true)
    (htext : textEn (sn.byte .io modeReg) = true) (b : Blink) (draw : Nat) :
    (compose sn b draw).2 =
      if validGrid (sn.read .ramw colsVisible 2) (sn.read .ramw linesVisible 2) = true then
        if sn.charsets = [] then [.noCharset] else []
      else [.textConfig] := by
  simp only [compose, composeRaster, hall, htext, if_true, textLayer]
  split
  · cases sn.charsets <;> rfl
  · rfl

/-- Settles O33: the tests of compose and of the text layer, in their order. -/
theorem diagnosticsOfTick : Obligations.DiagnosticsOfTick := by
  intro s
  refine ⟨_, (compose (snapshotOf s) s.blink s.draws).2, (presents_iff s _ _).mpr rfl, fun ⟨r, hr⟩ => ?_,
    fun hatt => ⟨fun htext => ?_, fun htext => ?_⟩⟩
  · have hall : allAttached s.regions = false := by
      rw [← Bool.not_eq_true, allAttached_iff]
      exact fun h => absurd (h r) (by simp [hr])
    exact congrArg Prod.snd (compose_of_unattached (sn := snapshotOf s) hall ..)
  · exact congrArg Prod.snd (compose_of_noText (sn := snapshotOf s) ((allAttached_iff _).mpr hatt) htext ..)
  · rw [compose_diag_of_text (sn := snapshotOf s) ((allAttached_iff _).mpr hatt) htext]
    simp only [validGrid_iff, snapshotOf_read_ramw, snapshotOf_charsets]
    exact ⟨fun hgrid => if_neg hgrid, fun hgrid => ⟨fun hsets => (if_pos hgrid).trans (if_pos hsets),
      fun hsets => (if_pos hgrid).trans (if_neg hsets)⟩⟩

/-- Settles O37: with both gates closed the frame is the blank one. -/
theorem noLayerLeavesTransparent : Obligations.NoLayerLeavesTransparent := by
  intro s hatt hbitmap htext
  have hcompose := compose_of_noText (sn := snapshotOf s) ((allAttached_iff _).mpr hatt) htext s.blink s.draws
  have hblank : bitmapEn ((snapshotOf s).byte .io modeReg) = false := hbitmap
  simp only [hblank, Bool.false_eq_true, if_false] at hcompose
  exact ⟨_, (presents_iff s _ _).mpr hcompose, fun x y hx hy => Frame.pixel_ofRaster blank x y hx hy⟩

/-! ## Repeated TICKs (R226) -/

/-- A TICK changes nothing of the snapshot, and the count of draws only by its diagnostics. -/
theorem tick_snapshot_draws {s t : State} (h : exec .tick s = .next t) :
    snapshotOf t = snapshotOf s ∧ t.draws = drawsAfter s.draws (compose (snapshotOf s) s.blink s.draws).2 := by
  rw [execTick_eq] at h
  cases h
  exact ⟨rfl, rfl⟩

/-- Settles O47: the second TICK composes from the same snapshot, phase and count of draws. -/
theorem repeatedTickPresentsTheSameFrame : Obligations.RepeatedTickPresentsTheSameFrame := by
  intro s t f hx hout hphase
  have hfirst := (presents_iff s f []).mp ⟨t, hx, hout⟩
  obtain ⟨hsnap, hdraws⟩ := tick_snapshot_draws hx
  have hsame : t.draws = s.draws := by rw [hdraws, hfirst]; rfl
  rw [presents_iff, hsnap, hsame, ← hfirst]
  exact compose_blink_congr (fun _ => textLayer_blink_congr (.inr hphase)) s.draws

end Sys2Proof.Machine

/-! PROOFS. The text layer outside its cells (42_text_mode.md): the pixels outside the grid's box (R172, R178, R184) and
the cursor rectangle (R180 to R182). -/

namespace Sys2Proof.Machine

/-- The grid writes no pixel outside the box of its cells (R178, R184). -/
theorem textGrid_px_outside (sn : Snapshot) (cs : CharSet) (overlay : Bool) {C L x y : Nat} (S : Nat) {xOff yOff : Int}
    (F : Raster) (h : (x : Int) < xOff ∨ xOff + 8 * (C : Int) ≤ x ∨ (y : Int) < yOff ∨ yOff + 8 * (L : Int) ≤ y) :
    (textGrid sn cs overlay C L S xOff yOff F).px x y = F.px x y :=
  if_neg (by omega)

/-- A shown cursor covers every pixel of its rectangle, whatever was drawn there (R180, R182). -/
theorem drawCursor_px_inside (s : State) (F : Raster) {x y : Nat} (hshown : cursorShown s)
    (hrect : inCursorRect s x y) :
    (drawCursor (snapshotOf s) s.blink (xOffOf s) (yOffOf s) F).px x y = .solid s.cfg.cursorColor := by
  have hgate : cursorEn ((snapshotOf s).byte .io cursorCtrl) = true ∧ s.blink.phase = .visible := hshown
  rw [drawCursor, if_pos hgate]
  exact if_pos hrect

/-- A TICK that draws the text layer presents the raster of that layer (R150, R170). -/
theorem presents_textRaster {s : State} {cs : CharSet} (h : drawsText s cs) :
    presents s (Frame.ofRaster (textRaster s cs)) [] :=
  (presents_iff s _ _).mpr (compose_of_drawsText h)

/-- Settles O40: neither the cursor nor the grid writes the pixel, so it is the one beneath. -/
theorem textLayerOutsideTheGrid : Obligations.TextLayerOutsideTheGrid := by
  intro s cs h
  refine ⟨_, presents_textRaster h, fun x y hx hy hbox hcur => ?_⟩
  calc (Frame.ofRaster (textRaster s cs)).pixel x y
      = (textRaster s cs).px x y := Frame.pixel_ofRaster _ x y hx hy
    _ = (textGrid ..).px x y := drawCursor_px_outside s _ hcur
    _ = beneath s x y := textGrid_px_outside _ _ _ _ _ hbox

/-- Settles O41: the cursor is drawn last, so its rectangle is what the frame shows there. -/
theorem cursorRectangleIsDrawn : Obligations.CursorRectangleIsDrawn := by
  intro s cs h hshown
  refine ⟨_, presents_textRaster h, fun x y hx hy hrect => ?_⟩
  exact (Frame.pixel_ofRaster _ x y hx hy).trans (drawCursor_px_inside s _ hshown hrect)

end Sys2Proof.Machine

/-! PROOFS. The bitmap layer pixel by pixel (43_bitmap_mode.md): inside and outside its W × H rectangle (R203), switched
off (R200), and as the whole frame where no text layer is drawn over it (R154). -/

namespace Sys2Proof.Machine

/-- An index looks up its colour record in the LUT bank that BM_CTRL selects (R93, R220, R224). -/
theorem entry_selected_lutBank (s : State) (ctrl idx : Byte) :
    entry (lutBank (snapshotOf s) (lutSel ctrl)) idx.toNat =
      recordAt s (0x2000 + 1024 * (ctrl.toNat / 2 % 8) + 4 * idx.toNat) := by
  rw [lutSel_eq, lutBank, entry_resolve_io s idx.isLt]

/-- An enabled bitmap covers every pixel of its rectangle: a colour record is opaque (R152, R203, R224). -/
theorem bitmapLayer_px_inside (s : State) (F : Raster) {x y : Nat} (hen : bmEn (s.byteAt .io bmCtrl) = true)
    (hin : x < (snapshotOf s).read .io bmWidth 2 ∧ y < (snapshotOf s).read .io bmHeight 2) :
    (bitmapLayer (snapshotOf s) F).px x y =
      recordAt s (0x2000 + 1024 * ((s.byteAt .io bmCtrl).toNat / 2 % 8) +
        4 * (s.byteAt .vram ((snapshotOf s).read .io bmStart 4 + y * (snapshotOf s).read .io bmWidth 2 + x)).toNat) := by
  simp only [bitmapLayer, snapshotOf_byte, hen, hin, and_self, if_true, entry_selected_lutBank]
  rfl

/-- The bitmap leaves every pixel outside its rectangle (R203). -/
theorem bitmapLayer_px_outside (sn : Snapshot) (F : Raster) {x y : Nat}
    (hout : ¬ (x < sn.read .io bmWidth 2 ∧ y < sn.read .io bmHeight 2)) : (bitmapLayer sn F).px x y = F.px x y := by
  simp only [bitmapLayer]
  split
  · exact if_neg hout
  · rfl

/-- A disabled bitmap draws nothing (R200). -/
theorem bitmapLayer_of_disabled {sn : Snapshot} (hen : bmEn (sn.byte .io bmCtrl) = false) (F : Raster) :
    bitmapLayer sn F = F := by
  simp [bitmapLayer, hen]

/-- With the bitmap layer alone, a TICK presents that layer over the blank frame (R153, R154). -/
theorem presents_bitmapLayer {s : State} (hatt : ∀ r, attached s.regions r = true)
    (hbitmap : bitmapEn (s.byteAt .io modeReg) = true) (htext : textEn (s.byteAt .io modeReg) = false) :
    presents s (Frame.ofRaster (bitmapLayer (snapshotOf s) blank)) [] := by
  have hcompose := compose_of_noText (sn := snapshotOf s) ((allAttached_iff _).mpr hatt) htext s.blink s.draws
  rw [snapshotOf_byte, if_pos hbitmap] at hcompose
  exact (presents_iff s _ _).mpr hcompose

/-- Settles O38: the frame is the bitmap layer over the blank frame, so each case is a case of that layer. -/
theorem bitmapLayerPixels : Obligations.BitmapLayerPixels := by
  intro s hatt hbitmap htext
  refine ⟨_, presents_bitmapLayer hatt hbitmap htext, fun x y hx hy => ?_⟩
  rw [Frame.pixel_ofRaster _ x y hx hy]
  refine ⟨fun hen => ⟨fun hin => ?inside, fun hout => ?outside⟩, fun hen => ?disabled⟩
  case inside => exact bitmapLayer_px_inside s blank hen hin
  case outside => exact bitmapLayer_px_outside (snapshotOf s) blank hout
  case disabled => exact congrArg (·.px x y) (bitmapLayer_of_disabled (sn := snapshotOf s) hen blank)

end Sys2Proof.Machine

/-! PROOFS. Character sets and region attach (45_charset.md): what a load checks, stores and appends (R240 to R246), the
one slot that is drawn (R247), attaching (R248), and what no operation takes away (R247, R249). -/

namespace Sys2Proof.Machine

/-! ## Only slot 0 is drawn (R247) -/

/-- The text layer takes its glyphs from slot 0; its grid and its cursor do not read the store. -/
theorem textLayer_of_slotZero (sn : Snapshot) (cs : CharSet) (l m : List CharSet) :
    textLayer { sn with charsets := cs :: l } = textLayer { sn with charsets := cs :: m } := rfl

/-- The bitmap layer does not read the store. -/
theorem bitmapLayer_of_charsets (sn : Snapshot) (l m : List CharSet) :
    bitmapLayer { sn with charsets := l } = bitmapLayer { sn with charsets := m } := rfl

theorem compose_of_slotZero (sn : Snapshot) (cs : CharSet) (l m : List CharSet) (b : Blink) (k : Nat) :
    compose { sn with charsets := cs :: l } b k = compose { sn with charsets := cs :: m } b k := by
  unfold compose composeRaster
  rw [textLayer_of_slotZero sn cs l m, bitmapLayer_of_charsets sn (cs :: l) (cs :: m)]
  rfl

/-! ## The checks of a load (R241, R242, R284) -/

theorem glyphSize_refused_iff (gw gh : Byte) : gw ≠ 8#8 ∨ gh ≠ 8#8 ↔ ¬ (gw.toNat = 8 ∧ gh.toNat = 8) := by
  simp only [ne_eq, ← BitVec.toNat_inj, BitVec.toNat_ofNat]
  omega

/-- The length of a font slice as a numeral (R99). -/
theorem fontBytes_eq : fontBytes = 2048 := rfl

section
variable {g : Regions} {r : Region} {soff : BitVec 32} {gw gh : Byte} {stream : List Byte}

theorem loadCheck_badGlyphSize (h : ¬ (gw.toNat = 8 ∧ gh.toNat = 8)) :
    loadCheck g r soff gw gh stream = .badGlyphSize :=
  if_pos ((glyphSize_refused_iff gw gh).mpr h)

theorem loadCheck_noTarget (hsize : gw.toNat = 8 ∧ gh.toNat = 8) (ha : attached g r = false) :
    loadCheck g r soff gw gh stream = .noTarget := by
  simp only [loadCheck, glyphSize_refused_iff, hsize, ha, and_self, not_true_eq_false, if_false, if_true]

theorem loadCheck_attached (hsize : gw.toNat = 8 ∧ gh.toNat = 8) (ha : attached g r = true) :
    loadCheck g r soff gw gh stream = if stream.length < soff.toNat + 2048 then .truncated else .ok := by
  simp only [loadCheck, glyphSize_refused_iff, hsize, ha, and_self, not_true_eq_false, if_false,
    Bool.true_eq_false, fontBytes_eq]

end

/-! ## LOAD_CHARSET as equations (R240) -/

/-- The state a successful load leaves: the bytes stored without side effects, the new set in the next slot. -/
def afterLoad (s : State) (r : Region) (toff soff : BitVec 32) (id tag : Byte) (stream : List Byte) : State :=
  ((s.withRegions (regionWriteBytes s.cfg r toff.toNat (fontSlice soff.toNat stream) s.regions)).withCharsets
    (s.charsets ++ [⟨id, tag, glyphsOf soff.toNat stream⟩])).emit (.load .ok)

/-- A load reports its check, and it stores and appends only if that is OK (R243). -/
theorem exec_loadCharset_eq (s : State) (r : Region) (toff soff : BitVec 32) (gw gh id tag : Byte)
    (stream : List Byte) :
    exec (.loadCharset r toff soff gw gh id tag stream) s =
      .next (if loadCheck s.regions r soff gw gh stream = .ok then afterLoad s r toff soff id tag stream
        else s.emit (.load (loadCheck s.regions r soff gw gh stream))) := by
  simp only [exec, execLoadCharset]
  cases loadCheck s.regions r soff gw gh stream <;> rfl

/-- Settles O50: the result is the check's, and each case is the first test of the check that fails. -/
theorem failedLoadChangesNothing : Obligations.FailedLoadChangesNothing := by
  intro s r toff soff gw gh id tag stream
  simp only [exec_loadCharset_eq]
  refine ⟨fun hsize => ?badGlyphSize, fun hsize ha => ?noTarget, fun hsize ha hlen => ?truncated⟩
  case badGlyphSize => rw [loadCheck_badGlyphSize hsize, if_neg (by decide)]
  case noTarget => rw [loadCheck_noTarget hsize ha, if_neg (by decide)]
  case truncated => rw [loadCheck_attached hsize ha, if_pos hlen, if_neg (by decide)]

/-! ## What a successful load stores and appends (R244 to R246) -/

theorem fontSlice_length {soff : Nat} {stream : List Byte} (h : soff + 2048 ≤ stream.length) :
    (fontSlice soff stream).length = 2048 := by
  simp only [fontSlice, List.length_take, List.length_drop, fontBytes_eq]
  omega

theorem fontSlice_getElem? (soff : Nat) (stream : List Byte) {i : Nat} (hi : i < 2048) :
    (fontSlice soff stream)[i]? = stream[soff + i]? := by
  rw [fontSlice, fontBytes_eq, List.getElem?_take_of_lt hi, List.getElem?_drop]

theorem some_getD_of_lt {l : List Byte} {i : Nat} (h : i < l.length) : some (l.getD i 0) = l[i]? := by
  simp [h]

/-- Row `y` of glyph `k` is stream byte `soff + 8k + y` (R245). -/
theorem glyphsOf_row {soff : Nat} {stream : List Byte} (h : soff + 2048 ≤ stream.length) {k y : Nat} (hk : k < 256)
    (hy : y < 8) : ((glyphsOf soff stream)[k]?).bind (fun g => g.rows[y]?) = stream[soff + 8 * k + y]? := by
  have hglyph : (glyphsOf soff stream)[k]? =
      some ⟨Vector.ofFn fun y : Fin 8 => stream.getD (soff + 8 * k + y.val) 0⟩ := by
    simp [glyphsOf, hk]
  rw [hglyph, ← some_getD_of_lt (show soff + 8 * k + y < stream.length by omega)]
  simp [hy]

section
variable (s : State) {r : Region} (toff : BitVec 32) {soff : BitVec 32} (id tag : Byte) {stream : List Byte}

/-- The bytes after a successful load: the stream's in its range inside the region, every other as before (R244). -/
theorem afterLoad_byteAt (ha : attached s.regions r = true) (hlen : soff.toNat + 2048 ≤ stream.length) (q : Region)
    (p : Nat) :
    (afterLoad s r toff soff id tag stream).byteAt q p =
      if q = r ∧ toff.toNat ≤ p ∧ p < toff.toNat + 2048 ∧ p < regionLen s.cfg r
      then (fontSlice soff.toNat stream).getD (p - toff.toNat) 0 else s.byteAt q p := by
  have hbytes := regionByte_writeBytes s.cfg r q (fontSlice soff.toNat stream) toff.toNat p s.regions
  simp only [fontSlice_length hlen, ha, and_true] at hbytes
  exact hbytes

theorem afterLoad_byteAt_stored (ha : attached s.regions r = true) (hlen : soff.toNat + 2048 ≤ stream.length)
    {i : Nat} (hi : i < 2048) (hin : toff.toNat + i < regionLen s.cfg r) :
    some ((afterLoad s r toff soff id tag stream).byteAt r (toff.toNat + i)) = stream[soff.toNat + i]? := by
  rw [afterLoad_byteAt s toff id tag ha hlen, if_pos ⟨rfl, by omega, by omega, hin⟩, Nat.add_sub_cancel_left,
    some_getD_of_lt (by rwa [fontSlice_length hlen]), fontSlice_getElem? _ _ hi]

/-- A load runs no side effect: but for the store and the result it changes region bytes only (R244). -/
theorem afterLoad_sameButBytes :
    sameButBytes { s with charsets := (afterLoad s r toff soff id tag stream).charsets
                          outputs := (afterLoad s r toff soff id tag stream).outputs }
      (afterLoad s r toff soff id tag stream) :=
  ⟨rfl, rfl, rfl, rfl, rfl, rfl, rfl, rfl, fun q => attached_writeBytes _ r q ..⟩

end

/-- Settles O49: the checks pass, and what the load then stores and appends is read off `afterLoad`. -/
theorem successfulLoad : Obligations.SuccessfulLoad := by
  intro s r toff soff id tag stream ha hlen
  have hok : loadCheck s.regions r soff 8 8 stream = .ok := by
    rw [loadCheck_attached (by decide) ha, if_neg (by omega)]
  refine ⟨afterLoad s r toff soff id tag stream, ⟨id, tag, glyphsOf soff.toNat stream⟩, ?_, rfl, rfl, rfl, rfl,
    ?_, fun k y => glyphsOf_row hlen, fun i => afterLoad_byteAt_stored s toff id tag ha hlen, fun q p hout => ?_,
    afterLoad_sameButBytes s toff id tag⟩
  · rw [exec_loadCharset_eq, if_pos hok]
  · simp [glyphsOf]
  · rw [afterLoad_byteAt s toff id tag ha hlen, if_neg]
    rintro ⟨rfl, hlo, hhi, -⟩
    rcases hout with hne | hlow | hhigh
    · exact hne rfl
    · omega
    · omega

/-! ## ATTACH_REGION (R248) -/

theorem exec_attachRegion_eq (r : Region) (s : State) :
    exec (.attachRegion r) s = .next (if attached s.regions r = true then s.emit (.attach .alreadyAttached)
      else (s.withRegions (Regions.set s.regions r (initImage s.cfg r))).emit (.attach .ok)) := by
  simp only [exec, execAttachRegion]
  split <;> rfl

/-- Inside a region that holds a byte array the byte at an offset is the array's (R13, R20). -/
theorem regionByte_of_get {cfg : Config} {g : Regions} {r : Region} {m : Memory} (hget : Regions.get g r = some m)
    {off : Nat} (hoff : off < regionLen cfg r) : regionByte cfg g r off = Memory.read m off := by
  simp only [regionByte, if_pos hoff, hget]

/-- Settles O51: the new regions differ from the old in the attached one, which holds its initial image. -/
theorem attachRegionGivesTheImage : Obligations.AttachRegionGivesTheImage := by
  intro s r
  rw [exec_attachRegion_eq]
  have hget : ∀ q, Regions.get (Regions.set s.regions r (initImage s.cfg r)) q =
      if q = r then some (initImage s.cfg r) else Regions.get s.regions q := fun q => Regions.get_set ..
  refine ⟨fun ha => ?unattached, fun ha => by rw [if_pos ha]⟩
  case unattached =>
    rw [if_neg (by simp [ha])]
    refine ⟨_, rfl, rfl, ?_, fun off hoff => ?_, fun q hq => (hget q).trans (if_neg hq), rfl⟩
    · exact (attached_set s.regions r r _).trans (if_pos rfl)
    · exact regionByte_of_get ((hget r).trans (if_pos rfl)) hoff

/-! ## What no operation takes away (R247, R249) -/

/-- From `s` to `t` no slot of the character-set store changes and no region is detached. -/
def onlyGrows (s t : State) : Prop :=
  s.charsets <+: t.charsets ∧ ∀ r, attached s.regions r = true → attached t.regions r = true

theorem onlyGrows_of_eq {s t : State} (hsets : t.charsets = s.charsets)
    (hatt : ∀ r, attached t.regions r = attached s.regions r) : onlyGrows s t :=
  ⟨⟨[], by rw [List.append_nil, hsets]⟩, fun r h => (hatt r).trans h⟩

theorem onlyGrows_refl (s : State) : onlyGrows s s := onlyGrows_of_eq rfl fun _ => rfl

theorem onlyGrows_trans {s t u : State} (h : onlyGrows s t) (k : onlyGrows t u) : onlyGrows s u := by
  obtain ⟨hsets, hatt⟩ := h
  obtain ⟨ksets, katt⟩ := k
  exact ⟨hsets.trans ksets, fun r hr => katt r (hatt r hr)⟩

theorem onlyGrows_emit (s : State) (o : Output) : onlyGrows s (s.emit o) := onlyGrows_of_eq rfl fun _ => rfl

theorem onlyGrows_writeByteBus (s : State) (a : Addr) (d : Byte) : onlyGrows s (writeByteBus a d s) := by
  obtain ⟨-, hsets, -, -, -, -, -, hatt⟩ := writeByteBus_frame s a d
  exact onlyGrows_of_eq hsets hatt

theorem onlyGrows_afterLoad (s : State) (r : Region) (toff soff : BitVec 32) (id tag : Byte) (stream : List Byte) :
    onlyGrows s (afterLoad s r toff soff id tag stream) :=
  ⟨⟨_, rfl⟩, fun q h => (attached_writeBytes _ r q ..).trans h⟩

theorem onlyGrows_attach (s : State) (r : Region) (m : Memory) :
    onlyGrows s (s.withRegions (Regions.set s.regions r m)) := by
  refine ⟨⟨[], List.append_nil _⟩, fun q h => ?_⟩
  rw [State.withRegions_regions, attached_set, h, ite_self]

/-- A write goes byte by byte, a load appends and an attach adds; every other operation leaves store and regions. -/
theorem exec_onlyGrows {i : Instr} {s t : State} (h : exec i s = .next t) : onlyGrows s t := by
  cases i with
  | readByte a => cases h; exact onlyGrows_emit ..
  | readWord a => cases h; exact onlyGrows_emit ..
  | readLong a => cases h; exact onlyGrows_emit ..
  | writeByte a d => cases h; exact onlyGrows_writeByteBus ..
  | writeWord a d => cases h; exact onlyGrows_trans (onlyGrows_writeByteBus ..) (onlyGrows_writeByteBus ..)
  | writeLong a d =>
    cases h
    have hlow := onlyGrows_trans (onlyGrows_writeByteBus s a (byteOf d 0))
      (onlyGrows_writeByteBus _ (a + 1) (byteOf d 1))
    exact onlyGrows_trans (onlyGrows_trans hlow (onlyGrows_writeByteBus ..)) (onlyGrows_writeByteBus ..)
  | queryRange r =>
    simp only [exec, execQueryRange] at h
    split at h <;> cases h <;> exact onlyGrows_emit ..
  | tick =>
    rw [execTick_eq] at h
    cases h
    exact onlyGrows_of_eq rfl fun _ => rfl
  | loadCharset r toff soff gw gh id tag stream =>
    rw [exec_loadCharset_eq] at h
    cases h
    split
    · exact onlyGrows_afterLoad ..
    · exact onlyGrows_emit ..
  | attachRegion r =>
    rw [exec_attachRegion_eq] at h
    cases h
    split
    · exact onlyGrows_emit ..
    · exact onlyGrows_trans (onlyGrows_attach ..) (onlyGrows_emit ..)

/-- Settles O48: compose reads no slot after slot 0, and a store that only grows keeps its first slot. -/
theorem onlySlotZeroIsDrawn : Obligations.OnlySlotZeroIsDrawn := by
  refine ⟨compose_of_slotZero, fun i s t cs hcs hx => ?_⟩
  obtain ⟨⟨later, hlater⟩, -⟩ := exec_onlyGrows hx
  rw [← hlater, List.head?_append, hcs, Option.some_or]

theorem step_onlyGrows {s t : State} (h : step s = .next t) : onlyGrows s t := by
  obtain ⟨-, ⟨-, rfl⟩ | ⟨a, later, -, ⟨-, rfl⟩ | ⟨i, rest, -, -, hx⟩⟩⟩ := step_cases s t h
  · exact onlyGrows_refl _
  · exact onlyGrows_of_eq rfl fun _ => rfl
  · have htaken : onlyGrows s ((s.withSchedule later).withQueue a rest) := onlyGrows_of_eq (by simp) (by simp)
    exact onlyGrows_trans htaken (exec_onlyGrows hx)

/-- A run that ends in a state is a first step and a shorter run after it. -/
theorem run_succ_cases {n : Nat} {s t : State} (h : Host.Core.run core (n + 1) s = .next t) :
    ∃ u, step s = .next u ∧ Host.Core.run core n u = .next t := by
  cases hs : core.step s with
  | next u => exact ⟨u, hs, by simpa only [Host.Core.run, hs] using h⟩
  | fault f => simp [Host.Core.run, hs] at h
  | refused r => simp [Host.Core.run, hs] at h

theorem run_onlyGrows {n : Nat} {s t : State} (h : Host.Core.run core n s = .next t) : onlyGrows s t := by
  induction n generalizing s with
  | zero => cases h; exact onlyGrows_refl _
  | succ n ih =>
    obtain ⟨u, hstep, hrun⟩ := run_succ_cases h
    exact onlyGrows_trans (step_onlyGrows hstep) (ih hrun)

/-- Settles O52: an operation and a run both lead to a state that has only grown. -/
theorem noOperationDetaches : Obligations.NoOperationDetaches := by
  refine ⟨fun i s t r hx ha => ?_, fun s t r n hrun ha => ?_⟩
  · obtain ⟨-, hatt⟩ := exec_onlyGrows hx
    exact hatt r ha
  · obtain ⟨-, hatt⟩ := run_onlyGrows hrun
    exact hatt r ha

end Sys2Proof.Machine

/-! PROOFS. The cursor blink (46_cursor_blink.md): power-on (R261), one BlinkStep and the TICK that runs it (R262,
R264), and the phase, the countdown and the frames after n TICKs (R266). -/

namespace Sys2Proof.Machine

/-! ## Power-on and one TICK (R261, R262, R264) -/

/-- Settles O1: each field as power-on sets it; no region has a byte array. -/
theorem powerOnState : Obligations.PowerOnState :=
  ⟨fun _ => ⟨rfl, rfl, fun r => by cases r <;> rfl, rfl, rfl⟩, rfl, rfl⟩

theorem Phase.flip_eq (p : Phase) : p.flip = if p = .visible then .hidden else .visible := by cases p <;> rfl

/-- Above 1, BlinkStep only decrements (R262). -/
theorem blinkStep_of_two_le (cfg : Config) {b : Blink} (h : 2 ≤ b.countdown) :
    blinkStep cfg b = ⟨b.phase, b.countdown - 1⟩ :=
  if_neg (by omega)

/-- At 1, BlinkStep flips the phase and reloads the countdown (R262). -/
theorem blinkStep_of_one (cfg : Config) {b : Blink} (h : b.countdown = 1) :
    blinkStep cfg b = ⟨if b.phase = .visible then .hidden else .visible, cfg.blinkRate⟩ := by
  rw [← Phase.flip_eq]
  exact if_pos (by omega)

/-- Settles O31: a TICK's one equation gives the frame of the state, and BlinkStep its two cases. -/
theorem tickPresentsAndStepsTheBlink : Obligations.TickPresentsAndStepsTheBlink := by
  intro s _
  exact ⟨_, _, _, execTick_eq s, rfl, rfl, rfl, rfl, rfl, rfl, rfl, blinkStep_of_two_le s.cfg, blinkStep_of_one s.cfg⟩

/-! ## The blink state after n steps (R266) -/

/-- The blink state n steps after (Visible, rate), in closed form (R266). -/
def blinkAfter (rate n : Nat) : Blink := ⟨if n / rate % 2 = 0 then .visible else .hidden, rate - n % rate⟩

theorem blinkAfter_zero (rate : Nat) : blinkAfter rate 0 = ⟨.visible, rate⟩ := by simp [blinkAfter]

/-- One more step inside a period of `rate` steps keeps the phase and brings the reload nearer; the step that completes
the period flips the phase and starts a full countdown. -/
theorem blinkStep_blinkAfter (cfg : Config) (n : Nat) (hrate : 1 ≤ cfg.blinkRate) :
    blinkStep cfg (blinkAfter cfg.blinkRate n) = blinkAfter cfg.blinkRate (n + 1) := by
  have hlt : n % cfg.blinkRate < cfg.blinkRate := Nat.mod_lt n hrate
  by_cases hlast : n % cfg.blinkRate + 1 = cfg.blinkRate
  · have hdvd : cfg.blinkRate ∣ n + 1 := by
      rw [Nat.dvd_iff_mod_eq_zero, ← Nat.mod_add_mod, hlast, Nat.mod_self]
    rw [blinkStep_of_one cfg (show cfg.blinkRate - n % cfg.blinkRate = 1 by omega)]
    simp only [blinkAfter, Nat.succ_div_of_dvd hdvd, Nat.mod_eq_zero_of_dvd hdvd]
    rcases Nat.mod_two_eq_zero_or_one (n / cfg.blinkRate) with hpar | hpar <;> simp [Nat.add_mod, hpar]
  · have hmod : (n + 1) % cfg.blinkRate = n % cfg.blinkRate + 1 := by
      rw [← Nat.mod_add_mod, Nat.mod_eq_of_lt (by omega)]
    have hdvd : ¬ cfg.blinkRate ∣ n + 1 := by rw [Nat.dvd_iff_mod_eq_zero, hmod]; omega
    rw [blinkStep_of_two_le cfg (show 2 ≤ cfg.blinkRate - n % cfg.blinkRate by omega)]
    simp only [blinkAfter, Nat.succ_div_of_not_dvd hdvd, hmod, Nat.sub_sub]

/-- From (Visible, BLINK_RATE), iterating BlinkStep follows the closed form (R266). -/
theorem blinkStep_iterate (cfg : Config) (hrate : 1 ≤ cfg.blinkRate) (n : Nat) :
    (blinkStep cfg)^[n] ⟨.visible, cfg.blinkRate⟩ = blinkAfter cfg.blinkRate n := by
  induction n with
  | zero => exact (blinkAfter_zero _).symm
  | succ n ih => rw [Function.iterate_succ_apply', ih, blinkStep_blinkAfter cfg n hrate]

/-! ## A run of TICKs (R150, R266) -/

/-- What n TICKs from any state lead to: the snapshot is kept, the blink state stepped n times, and n outputs follow the
earlier ones, each composed with the blink state before its own step. -/
structure AfterTicks (s : State) (n : Nat) (t : State) : Prop where
  snapshot : snapshotOf t = snapshotOf s
  blink : t.blink = (blinkStep s.cfg)^[n] s.blink
  count : t.outputs.length = s.outputs.length + n
  output : ∀ k, k < n → ∃ draw, t.outputs[s.outputs.length + k]? =
    some (.tick (compose (snapshotOf s) ((blinkStep s.cfg)^[k] s.blink) draw).1
      (compose (snapshotOf s) ((blinkStep s.cfg)^[k] s.blink) draw).2)

theorem AfterTicks.zero (s : State) : AfterTicks s 0 s := ⟨rfl, rfl, rfl, fun _ hk => absurd hk (Nat.not_lt_zero _)⟩

theorem AfterTicks.succ {s t u : State} {n : Nat} (h : AfterTicks s n t) (hx : exec .tick t = .next u) :
    AfterTicks s (n + 1) u := by
  have hcfg : t.cfg = s.cfg := congrArg Snapshot.cfg h.snapshot
  rw [execTick_eq, h.snapshot, h.blink, hcfg] at hx
  cases hx
  refine ⟨h.snapshot, (Function.iterate_succ_apply' (blinkStep s.cfg) n s.blink).symm,
    by simp [h.count, Nat.add_assoc], fun k hk => ?_⟩
  rcases Nat.lt_succ_iff_lt_or_eq.mp hk with hearlier | rfl
  · obtain ⟨draw, hdraw⟩ := h.output k hearlier
    exact ⟨draw, (List.getElem?_append_left (by rw [h.count]; omega)).trans hdraw⟩
  · exact ⟨t.draws, by simp [← h.count]⟩

/-- n TICKs complete from every state. -/
theorem execAll_ticks (s : State) (n : Nat) :
    ∃ t, execAll (List.replicate n .tick) s = .next t ∧ AfterTicks s n t := by
  induction n with
  | zero => exact ⟨s, rfl, .zero s⟩
  | succ n ih =>
    obtain ⟨t, hrun, hafter⟩ := ih
    refine ⟨_, ?_, hafter.succ (execTick_eq t)⟩
    rw [List.replicate_succ', execAll_append _ _ _ _ hrun, execTick_eq]

/-- Settles O32: n TICKs step the blink n times, and the steps from (Visible, BLINK_RATE) have the closed form. -/
theorem blinkPeriodOverTicks : Obligations.BlinkPeriodOverTicks := by
  intro s n hrate hblink
  obtain ⟨t, hrun, hafter⟩ := execAll_ticks s n
  have hsteps (k : Nat) : (blinkStep s.cfg)^[k] s.blink = blinkAfter s.cfg.blinkRate k := by
    rw [hblink, blinkStep_iterate s.cfg hrate]
  refine ⟨t, hrun, hafter.blink.trans (hsteps n), fun k hk => ?_⟩
  obtain ⟨draw, hdraw⟩ := hafter.output k hk
  rw [hsteps k] at hdraw
  exact ⟨draw, hdraw⟩

end Sys2Proof.Machine

/-! PROOFS. The diagnostics of a TICK (60_exceptions.md R281): the two ways in which a compose uses the number of its
draw, of which a frame without a diagnostic and a frame with one are the two sides. -/

namespace Sys2Proof.Machine

/-- What is drawn uses the number of the draw in one of two ways (R281): it is a raster free of it, without a
diagnostic, or that draw's placeholder, for a reason free of it. -/
def fixedOrPlaceholder (drawn : Nat → Raster × List DiagReason) : Prop :=
  (∃ F, ∀ k, drawn k = (F, [])) ∨ ∃ reason, ∀ k, drawn k = (placeholder k, [reason])

theorem fixedOrPlaceholder_of_fixed (F : Raster) : fixedOrPlaceholder fun _ => (F, []) := .inl ⟨F, fun _ => rfl⟩

theorem fixedOrPlaceholder_of_placeholder (reason : DiagReason) :
    fixedOrPlaceholder fun k => (placeholder k, [reason]) := .inr ⟨reason, fun _ => rfl⟩

/-- A test that does not look at the number of the draw chooses between the two sides once for every draw. -/
theorem fixedOrPlaceholder_ite {p : Prop} [Decidable p] {drawn drawn' : Nat → Raster × List DiagReason}
    (hthen : fixedOrPlaceholder drawn) (helse : fixedOrPlaceholder drawn') :
    fixedOrPlaceholder fun k => if p then drawn k else drawn' k := by
  split
  · exact hthen
  · exact helse

/-- The text layer draws its placeholder on an invalid grid and with no set loaded (R171, R183). -/
theorem textLayer_fixedOrPlaceholder (sn : Snapshot) (b : Blink) (overlay : Bool) (F : Raster) :
    fixedOrPlaceholder fun k => textLayer sn b overlay k F := by
  refine fixedOrPlaceholder_ite ?validGrid (fixedOrPlaceholder_of_placeholder .textConfig)
  cases sn.charsets with
  | nil => exact fixedOrPlaceholder_of_placeholder .noCharset
  | cons cs later => exact fixedOrPlaceholder_of_fixed _

/-- A compose draws its own placeholder with a region unattached (R155), and else only the text layer's. -/
theorem composeRaster_fixedOrPlaceholder (sn : Snapshot) (b : Blink) : fixedOrPlaceholder (composeRaster sn b) := by
  refine fixedOrPlaceholder_ite ?attached (fixedOrPlaceholder_of_placeholder .noStorage)
  exact fixedOrPlaceholder_ite (textLayer_fixedOrPlaceholder ..) (fixedOrPlaceholder_of_fixed _)

/-- Without a diagnostic a compose answers the same for every number of the draw (R281). -/
theorem compose_eq_of_clean {sn : Snapshot} {b : Blink} {k : Nat} (hclean : (compose sn b k).2 = []) (k' : Nat) :
    compose sn b k = compose sn b k' := by
  unfold compose at hclean ⊢
  rcases composeRaster_fixedOrPlaceholder sn b with ⟨F, hfixed⟩ | ⟨reason, hdrawn⟩
  · rw [hfixed k, hfixed k']
  · rw [hdrawn k] at hclean
    exact absurd hclean (List.cons_ne_nil reason [])

/-- With a diagnostic the frame of a compose is the placeholder of its draw (R281). -/
theorem compose_frame_of_diag {sn : Snapshot} {b : Blink} {k : Nat} {f : Frame} {diag : List DiagReason}
    (hcompose : compose sn b k = (f, diag)) (hdiag : diag ≠ []) : f = Frame.ofRaster (placeholder k) := by
  unfold compose at hcompose
  rcases composeRaster_fixedOrPlaceholder sn b with ⟨F, hfixed⟩ | ⟨reason, hdrawn⟩
  · rw [hfixed k] at hcompose
    exact absurd (congrArg Prod.snd hcompose).symm hdiag
  · rw [hdrawn k] at hcompose
    exact (congrArg Prod.fst hcompose).symm

/-- Settles O34: of the two ways a compose uses the number of its draw, the one without a diagnostic is free of it. -/
theorem cleanFrameIsDetermined : Obligations.CleanFrameIsDetermined :=
  fun _ _ _ k' hclean => compose_eq_of_clean hclean k'

/-- Settles O35: the TICK counts one more draw, and its frame is the placeholder that bears the number before. -/
theorem diagnosticFrameIsADraw : Obligations.DiagnosticFrameIsADraw := by
  intro s t f diag htick hout hdiag
  have hcompose : compose (snapshotOf s) s.blink s.draws = (f, diag) := (presents_iff s f diag).mp ⟨t, htick, hout⟩
  obtain ⟨-, hdraws⟩ := tick_snapshot_draws htick
  refine ⟨?count, fun x y hx hy => ?pixel⟩
  case count => rw [hdraws, hcompose, drawsAfter, if_neg hdiag]
  case pixel =>
    rw [compose_frame_of_diag hcompose hdiag]
    exact Frame.pixel_ofRaster (placeholder s.draws) x y hx hy

end Sys2Proof.Machine

/-! PROOFS. Idle turns: what a step does where no operation has been issued. -/

namespace Sys2Proof.Machine

/-- The decision a step makes where the schedule has run out. -/
theorem takeNext_noTurn {s : State} (hs : s.schedule = []) : takeNext s = .nothing s := by
  simp only [takeNext, hs]

/-- The decision a step makes on the turn of an agent that has issued nothing. -/
theorem takeNext_idleAgent {s : State} {a : Agent} {later : List Agent} (hs : s.schedule = a :: later)
    (hq : s.queue a = []) : takeNext s = .nothing (s.withSchedule later) := by
  simp only [takeNext, hs, hq]

/-- With nothing issued no operation runs: what the schedule leaves is the next state. -/
theorem step_of_takeNext_nothing {s t : State} (hv : configValid s.cfg = true) (hn : takeNext s = .nothing t) :
    step s = .next t := by
  simp only [step, if_pos hv, hn]

/-- Settles O5: with no turn left, or with an empty queue on a turn, the schedule offers nothing to run. -/
theorem idleTurnChangesNothing : Obligations.IdleTurnChangesNothing := by
  intro s hv
  constructor
  case left =>
    intro hs
    exact step_of_takeNext_nothing hv (takeNext_noTurn hs)
  case right =>
    intro a later hs hq
    exact step_of_takeNext_nothing hv (takeNext_idleAgent hs hq)

end Sys2Proof.Machine
